-- ==== Sys2Proof/Word.lean ====
section
/-! DEFINITION. The words of the block: 32-bit registers (00_scope.md R9, 10_state.md R32) and the
8-bit bytes of buffer memory (20_memory.md R80). -/

namespace Sys2Proof

/-- A register or command word: REG_WIDTH is 32 (R9). -/
abbrev Word := BitVec 32

/-- A byte of buffer memory (R80). -/
abbrev Byte := BitVec 8

end Sys2Proof
end

