-- ==== Sys2Proof/Config.lean ====
section
/-! DEFINITION. The implementation parameters of 00_scope.md R9, the byte that an address nothing has
written reads as, and the free values: constants with no body for what the spec leaves unspecified. -/

namespace Sys2Proof.Config

/-- READ_MAX and WRITE_MAX of R9: the largest bit count of RD.BITS and WR.BITS. -/
abbrev bitsMax : Nat := 32

/-- UE_ZERO_CAP of R9 and R171: the zero bit at which RD.UE stops. -/
abbrev ueZeroCap : Nat := 32

/-- BUF_MAX_BYTES of R9: the largest buffer of a cursor. -/
abbrev bufMaxBytes : Nat := 2 ^ 29 - 1

/-- ADDR_WIDTH of R9: addresses of buffer memory are below 2^32 (R80). -/
abbrev addrLimit : Nat := 2 ^ 32

/-- ADTS_HDR_BYTES of R9 and R242. -/
abbrev adtsHeaderBytes : Nat := 7

/-- TAG_HDR_BYTES of R9. -/
abbrev tagHeaderBytes : Nat := 11

/-- The size of the register window in bytes (R32). -/
abbrev windowBytes : Nat := 256

/-- What a byte reads as that nothing has written. R290 leaves memory at power-on unspecified.
DESIGN CHOICE, unsafe, entry 1. -/
def unwritten : Byte := 0

/-- A byte the spec leaves unspecified, the n-th one drawn (R291, R302). It has no body: a claim holds
whatever it is. Safe, entry 6. -/
opaque freeByte : Nat → Byte

/-- How many host actions may happen between the acceptance of a command and its performance (R310),
for the n-th free value drawn. It has no body. Safe, entry 5. -/
opaque latency : Nat → Nat

end Sys2Proof.Config
end

