-- ==== Sys2Proof/Machine/State.lean ====
section
/-! DEFINITION. The state of the machine: the block's registers (10_state.md R32), its hidden state (R57),
buffer memory (20_memory.md R80), the two OPEN parameters (00_scope.md R9), and, as the model's own fields,
the host's pending actions. Also the reasons for a stop, and the state after reset. -/

namespace Sys2Proof.Machine

/-- A completion code, the value of STATUS.CODE: the seven values of 60_exceptions.md R260. The other nine
are never produced (R41). -/
inductive Code where
  | ok
  | decodeError
  | notFound
  | capacityError
  | illegalCommand
  | illegalOperand
  | busError
deriving DecidableEq, Repr

/-- The fields of STATUS (R39). -/
structure Status where
  busy : Bool
  halted : Bool
  derr : Bool
  ovr : Bool
  code : Code
deriving DecidableEq, Repr

/-- A BitCursor: base address, bit capacity, bit position (R43 to R45, R47 to R49). -/
structure Cursor where
  base : Word
  cap : Word
  pos : Word
deriving DecidableEq, Repr

/-- SPL_CUR, SPL_END and SPL_ACTIVE.ACTIVE (R51 to R53). -/
structure Splitter where
  cur : Word
  stop : Word
  active : Bool
deriving DecidableEq, Repr

/-- NAL_ADDR, NAL_LEN and NAL_TYPE.TYPE (R54 to R56). -/
structure Nal where
  addr : Word
  len : Word
  unitType : BitVec 5
deriving DecidableEq, Repr

/-- Buffer memory as address and byte pairs in canonical form; see Memory.read for what an address that is
not listed reads as. -/
abbrev Memory := List Host.Cell

/-- The byte addresses from start on, len of them. -/
structure Region where
  start : Nat
  len : Nat
deriving DecidableEq, Repr

/-- The OPEN parameters of R9: the bus address REG_BASE, and MemAdmit as the regions that respond (R81).
They never change. Entries 2 and 3. -/
structure Platform where
  regBase : Nat
  regions : List Region
deriving DecidableEq, Repr

/-- What the host can do to the block (10_state.md R61, 30_encoding.md R130). -/
inductive HostAction where
  /-- A register read of the given number of bytes at a bus address (R35). -/
  | regRead (addr size : Nat)
  /-- A register write of the given number of bytes at a bus address (R35). -/
  | regWrite (addr size : Nat) (v : Word)
  /-- A read of one byte of buffer memory. -/
  | memRead (addr : Nat)
  /-- A write of one byte of buffer memory. -/
  | memWrite (addr : Nat) (v : Byte)
  /-- Read STATUS repeatedly until BUSY = 0 (R130). -/
  | wait
  /-- A hardware reset (70_reset_and_hazards.md R290). -/
  | hardReset
deriving DecidableEq, Repr

/-- The model's own fields: what the host has still to do, what it was answered, how long the pending
command stays pending, whether the host raced with it, and how many free values were drawn. -/
structure Env where
  queue : List HostAction
  seen : List Word
  delay : Nat
  raced : Bool
  drawn : Nat
deriving DecidableEq, Repr

/-- The machine. CTRL stores nothing (R38), and the pending command is CMD while BUSY = 1 (R57). -/
structure State where
  status : Status
  cmd : Word
  opa : Word
  opb : Word
  result : Word
  rd : Cursor
  wr : Cursor
  spl : Splitter
  nal : Nal
  /-- The operand A latched at acceptance, hidden (R57, R113). -/
  latA : Word
  /-- The operand B latched at acceptance, hidden (R57, R113). -/
  latB : Word
  mem : Memory
  plat : Platform
  env : Env
deriving DecidableEq, Repr

/-- Why the machine stops with a fault. No command does: every error of a command is a next state (R260). -/
inductive Fault where
  /-- The host read or wrote a byte of buffer memory that is not admitted; raised by a host action. The
  spec gives such an access no effect. Safe, entry 13. -/
  | hostByteNotAdmitted
deriving DecidableEq, Repr

/-- Why the machine refuses to go on. No command does. -/
inductive Refusal where
  /-- No meaning is written yet for the instruction; used by no arm of exec. Safe. -/
  | notModelled (mnemonic : String)
  /-- A register access that is not 32 bits wide; raised by a host action (R35). Safe. -/
  | registerAccessSize
  /-- A register access at an address that is not a multiple of 4 from REG_BASE (R35). Safe. -/
  | registerMisaligned
  /-- A register access outside the 256-byte window (R35). Safe, entry 14. -/
  | outsideRegisterWindow
deriving DecidableEq, Repr

/-- All of STATUS at 0 (R290). -/
def Status.zero : Status :=
  { busy := false, halted := false, derr := false, ovr := false, code := .ok }

/-- The state after a hardware reset at power-on: every register 0 (R60, R290). Memory has nothing listed,
the platform admits every address and puts REG_BASE at 0 (entries 1 to 3), and the host has nothing to do. -/
def State.reset : State where
  status := Status.zero
  cmd := 0
  opa := 0
  opb := 0
  result := 0
  rd := { base := 0, cap := 0, pos := 0 }
  wr := { base := 0, cap := 0, pos := 0 }
  spl := { cur := 0, stop := 0, active := false }
  nal := { addr := 0, len := 0, unitType := 0 }
  latA := 0
  latB := 0
  mem := []
  plat := { regBase := 0, regions := [{ start := 0, len := Config.addrLimit }] }
  env := { queue := [], seen := [], delay := 0, raced := false, drawn := 0 }

end Sys2Proof.Machine
end

