-- ==== Sys2Proof/Machine/Flags.lean ====
section
/-! DEFINITION. The flags of the block: the STATUS fields and SPL_ACTIVE (10_state.md R39, R53, R59). There
are no condition codes, no carry and no overflow (00_scope.md R20). -/

namespace Sys2Proof.Machine

/-- The number of a completion code in STATUS[7:4] (R39, 60_exceptions.md R260). -/
def Code.number : Code → BitVec 4
  | .ok => 0
  | .decodeError => 1
  | .notFound => 2
  | .capacityError => 3
  | .illegalCommand => 4
  | .illegalOperand => 5
  | .busError => 6

/-- The codes that halt the block (R262). -/
def Code.fatal : Code → Bool
  | .ok => false
  | .decodeError => false
  | .notFound => false
  | .capacityError => true
  | .illegalCommand => true
  | .illegalOperand => true
  | .busError => true

/-- STATUS as the host reads it: reserved bits 31:8, CODE, OVR, DERR, HALTED, BUSY (R39). -/
def Status.word (st : Status) : Word :=
  (0 : BitVec 24) ++ st.code.number ++ BitVec.ofBool st.ovr ++ BitVec.ofBool st.derr
    ++ BitVec.ofBool st.halted ++ BitVec.ofBool st.busy

/-- STATUS after a command that completes: CODE written, BUSY cleared (30_encoding.md R114, R59). -/
def Status.completed (c : Code) (st : Status) : Status :=
  { st with busy := false, code := c }

/-- STATUS after a command that raises: CODE written, BUSY cleared, DERR set by DECODE_ERROR, HALTED set by
a fatal code (R262, R263, R264). -/
def Status.errored (c : Code) (st : Status) : Status :=
  { busy := false
    halted := st.halted || c.fatal
    derr := st.derr || (c == .decodeError)
    ovr := st.ovr
    code := c }

/-- STATUS after a host write of w: bits 2 and 3 are write-1-to-clear, nothing else is writable (R40). -/
def Status.written (w : Word) (st : Status) : Status :=
  { st with derr := st.derr && !w.getLsbD 2, ovr := st.ovr && !w.getLsbD 3 }

/-- SPL_ACTIVE as the host reads it: ACTIVE in bit 0, bits 31:1 reserved (R53). -/
def Splitter.activeWord (sp : Splitter) : Word :=
  (BitVec.ofBool sp.active).setWidth 32

end Sys2Proof.Machine
end

