-- ==== Sys2Proof/Machine/Ops.lean ====
section
/-! DEFINITION. The operations every command shares: buffer memory (20_memory.md R80 to R90), the bit
primitives (41_bitio.md R141), big-endian bytes (R84), completing a command and raising an error
(30_encoding.md R114, 60_exceptions.md R260 to R264), the ways out of an error (R271) and acceptance
(R112, R113). -/

namespace Sys2Proof.Machine

/-! ## Buffer memory -/

/-- MemRead(addr, 1) (00_scope.md R15): the listed byte, else the byte of memory nothing has written. -/
def Memory.read : Memory → Nat → Byte
  | [], _ => Config.unwritten
  | (k, b) :: rest, a => if a = k then b else Memory.read rest a

/-- MemWrite(addr, 1, v) (R15), keeping the canonical form: no entry for the byte an unlisted address
reads as. -/
def Memory.write : Memory → Nat → Byte → Memory
  | [], a, v => if v = Config.unwritten then [] else [(a, v)]
  | (k, b) :: rest, a, v =>
    if a < k then
      if v = Config.unwritten then (k, b) :: rest else (a, v) :: (k, b) :: rest
    else if a = k then
      if v = Config.unwritten then rest else (a, v) :: rest
    else (k, b) :: Memory.write rest a v

/-- The canonical form from address lo on: addresses strictly rising and below 2^32, no entry equal to
what an unlisted address reads as. -/
def Memory.wfFrom : Nat → Memory → Bool
  | _, [] => true
  | lo, (k, b) :: rest =>
    decide (lo ≤ k) && decide (k < Config.addrLimit) && decide (b ≠ Config.unwritten)
      && Memory.wfFrom (k + 1) rest

/-- The canonical form of a memory. -/
def Memory.wf (m : Memory) : Bool := Memory.wfFrom 0 m

/-- Mem[a .. a+n), the bytes in order (R15). -/
def Memory.bytes (m : Memory) (a : Nat) : Nat → List Byte
  | 0 => []
  | n + 1 => m.read a :: Memory.bytes m (a + 1) n

/-! ## Admission -/

/-- MemAdmit(addr) (R81). An address of 2^32 or more is no address of buffer memory (R80). -/
def Platform.admits (p : Platform) (a : Nat) : Bool :=
  decide (a < Config.addrLimit)
    && p.regions.any fun r => decide (r.start ≤ a) && decide (a < r.start + r.len)

/-- Every byte of a region is admitted (R82). -/
def Platform.admitsAll (p : Platform) (r : Region) : Bool :=
  (List.range r.len).all fun i => p.admits (r.start + i)

/-- The bytes holding bits [p, p + m) of a cursor with the given base (R82). -/
def bitSpan (base p m : Nat) : Region where
  start := base + p / 8
  len := if m = 0 then 0 else (p + m - 1) / 8 - p / 8 + 1

/-- The address lies in the region. -/
def Region.holds (r : Region) (a : Nat) : Bool :=
  decide (r.start ≤ a) && decide (a < r.start + r.len)

/-! ## Bits -/

/-- Bit(base, p): bit 7 - (p mod 8) of the byte at base + floor(p/8) (R12, R141). -/
def Memory.bit (m : Memory) (base p : Nat) : Bool :=
  (m.read (base + p / 8)).getLsbD (7 - p % 8)

/-- ReadBitsAt(base, p, n): n bits from position p, the first the most significant (R141). -/
def Memory.readBits (m : Memory) (base p : Nat) : Nat → Nat
  | 0 => 0
  | n + 1 => (m.bit base p).toNat * 2 ^ n + Memory.readBits m base (p + 1) n

/-- A byte with bit s replaced (R102, R141). -/
def replaceBit (old : Byte) (s : Nat) (b : Bool) : Byte :=
  (old &&& ~~~(1#8 <<< s)) ||| ((BitVec.ofBool b).setWidth 8 <<< s)

/-- SetBit(base, p, b) (R141): read, replace one bit, write back. -/
def Memory.setBit (m : Memory) (base p : Nat) (b : Bool) : Memory :=
  m.write (base + p / 8) (replaceBit (m.read (base + p / 8)) (7 - p % 8) b)

/-- SetBit over a bit string, in increasing bit position (R93, R158). -/
def Memory.putBits (m : Memory) (base p : Nat) : List Bool → Memory
  | [] => m
  | b :: bs => Memory.putBits (m.setBit base p b) base (p + 1) bs

/-- The n-bit string of a value, most significant bit first (R158). -/
def valueBits (n v : Nat) : List Bool :=
  (List.range n).map fun i => v.testBit (n - 1 - i)

/-- The bits of a byte sequence, each byte most significant bit first (R158). -/
def bytesBits (bytes : List Byte) : List Bool :=
  bytes.flatMap fun b => valueBits 8 b.toNat

/-- BE_n(v): the big-endian n bytes of v (R18, R84). -/
def beBytes : Nat → Nat → List Byte
  | 0, _ => []
  | n + 1, v => BitVec.ofNat 8 (v / 2 ^ (8 * n)) :: beBytes n v

/-! ## How a command ends -/

/-- What the pseudocode of a command reaches first (60_exceptions.md R266): complete, with the code and the
state it leaves, or raise, with the code (00_scope.md R16). -/
inductive Ending where
  | complete (c : Code) (t : State)
  | raise (c : Code)
deriving DecidableEq, Repr

/-- A command completes: its updates are kept, CODE is written and BUSY cleared (30_encoding.md R114). -/
def finish (c : Code) (t : State) : State :=
  { t with status := t.status.completed c }

/-- A command raises: every update is discarded but those of STATUS (R262, R263, R264). This is the block's
whole exception entry; there is no vector, saved pc or mode (R269). -/
def takeError (c : Code) (s : State) : State :=
  { s with status := s.status.errored c }

/-- The end of a command performed in s (R114). -/
def Ending.settle (s : State) : Ending → Host.Outcome State Fault Refusal
  | .complete c t => .next (finish c t)
  | .raise c => .next (takeError c s)

/-- The host's write of w to STATUS clears the sticky bits it names (10_state.md R40). After DECODE_ERROR
there is no other return: the block accepts the next command at once (R271). -/
def clearSticky (w : Word) (s : State) : State :=
  { s with status := s.status.written w }

/-- Every register and latch becomes 0 and no command is pending (R60, R290). The way out of HALTED (R271).
Memory and the platform stay. -/
def clearRegisters (s : State) : State :=
  { status := Status.zero
    cmd := 0
    opa := 0
    opb := 0
    result := 0
    rd := { base := 0, cap := 0, pos := 0 }
    wr := { base := 0, cap := 0, pos := 0 }
    spl := { cur := 0, stop := 0, active := false }
    nal := { addr := 0, len := 0, unitType := 0 }
    latA := 0
    latB := 0
    mem := s.mem
    plat := s.plat
    env := { s.env with delay := 0, raced := false } }

/-! ## Acceptance -/

/-- Acceptance of w: CMD, A and B are latched and BUSY is set (R113). How long the command then stays pending
is a free value (R310, entry 5). -/
def accept (w : Word) (s : State) : State :=
  { s with
    cmd := w
    latA := s.opa
    latB := s.opb
    status := { s.status with busy := true }
    env := { s.env with
      delay := Config.latency s.env.drawn
      drawn := s.env.drawn + 1
      raced := false } }

/-- The host's write of w to CMD: ignored while halted, dropped with OVR set while busy, else accepted
(R112). -/
def issue (w : Word) (s : State) : State :=
  if s.status.halted then s
  else if s.status.busy then { s with status := { s.status with ovr := true } }
  else accept w s

/-- Each of n bytes from address a on takes a free value, and each draw is counted (R291, R302). -/
def freeBytes (a : Nat) : Nat → State → State
  | 0, s => s
  | n + 1, s =>
    freeBytes (a + 1) n
      { s with
        mem := s.mem.write a (Config.freeByte s.env.drawn)
        env := { s.env with drawn := s.env.drawn + 1 } }

end Sys2Proof.Machine
end

