-- ==== Sys2Proof/Machine/Operands.lean ====
section
/-! DEFINITION. The operand forms: the latched operands (30_encoding.md R120, R121) and the three ways a
command addresses buffer memory (R127): an absolute range, the reader cursor, the writer cursor. -/

namespace Sys2Proof.Machine

/-- The latched A as an unsigned integer (R120). -/
abbrev State.opndA (s : State) : Nat := s.latA.toNat

/-- The latched B as an unsigned integer (R120). -/
abbrev State.opndB (s : State) : Nat := s.latB.toNat

/-- sext_32(A): the one signed operand, of FLV.VHDR (R121, 45_flv_framer.md R231). -/
abbrev State.signedA (s : State) : Int := s.latA.toInt

/-! ## Absolute ranges -/

/-- The source range [A, A+B) (R127). -/
def State.source (s : State) : Region := { start := s.opndA, len := s.opndB }

/-- A + B < 2^32, computed without overflow (20_memory.md R88). -/
def State.sourceFits (s : State) : Bool := decide (s.opndA + s.opndB < Config.addrLimit)

/-- Every byte of the source range is admitted (R82). -/
abbrev State.sourceAdmitted (s : State) : Bool := s.plat.admitsAll s.source

/-- The snapshot Mem[A+skip .. A+B) of a source range (R100). -/
def State.snapshot (s : State) (skip : Nat) : List Byte :=
  s.mem.bytes (s.opndA + skip) (s.opndB - skip)

/-! ## The reader cursor -/

/-- Take(n) at the local position p: the n bits there, if the reader has them (41_bitio.md R143) and their
bytes are admitted (R141). -/
def State.take (s : State) (p n : Nat) : Except Code Nat :=
  if s.rd.cap.toNat < p + n then .error .decodeError
  else if s.plat.admitsAll (bitSpan s.rd.base.toNat p n) then
    .ok (s.mem.readBits s.rd.base.toNat p n)
  else .error .busError

/-- A reader command completes with OK: RESULT and RD_POS are written (R142, R170, R175). -/
def State.deliver (v : Word) (p : Nat) (s : State) : State :=
  { s with result := v, rd := { s.rd with pos := BitVec.ofNat 32 p } }

/-! ## The writer cursor -/

/-- The bytes that an emission of m bits would write (R82, R158). -/
def State.outSpan (s : State) (m : Nat) : Region := bitSpan s.wr.base.toNat s.wr.pos.toNat m

/-- EmitBits(m, bits): one capacity check for the whole output, then admission of every byte, then the
bits are set and WR_POS moves past them (R158). For m = 0 it always succeeds, as R158 says (entry 18). -/
def State.emitBits (s : State) (bits : List Bool) : Except Code State :=
  if s.wr.cap.toNat < s.wr.pos.toNat + bits.length then .error .capacityError
  else if s.plat.admitsAll (s.outSpan bits.length) then
    .ok { s with
      mem := s.mem.putBits s.wr.base.toNat s.wr.pos.toNat bits
      wr := { s.wr with pos := BitVec.ofNat 32 (s.wr.pos.toNat + bits.length) } }
  else .error .busError

/-- A command whose effect is one emission (R158), followed by an update of registers. -/
def State.emitting (s : State) (bits : List Bool) (after : State → State) : Ending :=
  match s.emitBits bits with
  | .ok t => .complete .ok (after t)
  | .error c => .raise c

/-- A command whose effect is one Emit and which writes no RESULT (R158, R220). -/
def State.emit (s : State) (bytes : List Byte) : Ending :=
  s.emitting (bytesBits bytes) id

/-- A command whose effect is one Emit and whose RESULT is n (10_state.md R34). -/
def State.emitCounted (s : State) (bytes : List Byte) (n : Nat) : Ending :=
  s.emitting (bytesBits bytes) fun t => { t with result := BitVec.ofNat 32 n }

end Sys2Proof.Machine
end

