-- ==== Sys2Proof/Syntax.lean ====
section
/-! DEFINITION. The twenty commands of BFB-1, one constructor for each row of 30_encoding.md R122, with
the immediate fields of its format (R115, R120) at the widths the format gives them. -/

namespace Sys2Proof

/-- A command (R110). The latched operands A and B are no part of it: they are state (R113). -/
inductive Instr where
  /-- RD.INIT, format N (R140). -/
  | rdInit
  /-- RD.BITS n, format B (R142). -/
  | rdBits (n : BitVec 6)
  /-- RD.BIT, format N (R145). -/
  | rdBit
  /-- RD.SKIP n, format S (R146). -/
  | rdSkip (n : BitVec 24)
  /-- RD.UE, format N (R170). -/
  | rdUe
  /-- RD.SE, format N (R175). -/
  | rdSe
  /-- WR.INIT, format N (R150). -/
  | wrInit
  /-- WR.BITS n, format B (R152). -/
  | wrBits (n : BitVec 6)
  /-- SC.FIND, format N (R190). -/
  | scFind
  /-- SPL.INIT, format N (R195). -/
  | splInit
  /-- SPL.NEXT, format N (R198). -/
  | splNext
  /-- RBSP.EXTRACT, format N (R210). -/
  | rbspExtract
  /-- FLV.FHDR flags, format F: has-audio and has-video (R116, R221). -/
  | flvFhdr (au vi : Bool)
  /-- FLV.THDR type, format T (R117, R225). -/
  | flvThdr (tagType : BitVec 5)
  /-- FLV.AHDR pkt, format A (R119, R228). -/
  | flvAhdr (pkt : BitVec 8)
  /-- FLV.VHDR ft, pkt, format V (R119, R231). -/
  | flvVhdr (ft : BitVec 4) (pkt : BitVec 8)
  /-- FLV.PAYLOAD, format N (R236). -/
  | flvPayload
  /-- FLV.PNAL, format N (R238). -/
  | flvPnal
  /-- FLV.PADTS, format N (R241). -/
  | flvPadts
  /-- FLV.TRAILER, format N (R245). -/
  | flvTrailer
deriving DecidableEq, Repr

end Sys2Proof
end

