-- ==== Sys2Proof/Machine/BitReader.lean ====
section
/-! DEFINITION. The bit reader's commands: RD.INIT, RD.BITS, RD.BIT, RD.SKIP (41_bitio.md R140 to R147). -/

namespace Sys2Proof.Machine

/-- A cursor over B bytes at A, or the operand check that fails (R140, R150). -/
def State.newCursor (s : State) : Except Code Cursor :=
  if Config.bufMaxBytes < s.opndB then .error .illegalOperand
  else if !s.sourceFits then .error .illegalOperand
  else .ok { base := s.latA, cap := BitVec.ofNat 32 (8 * s.opndB), pos := 0 }

/-- Reads n bits at RD_POS into RESULT (R142). -/
def State.readField (s : State) (n : Nat) : Ending :=
  match s.take s.rd.pos.toNat n with
  | .ok v => .complete .ok (s.deliver (BitVec.ofNat 32 v) (s.rd.pos.toNat + n))
  | .error c => .raise c

/-- RD.INIT (R140). -/
def execRdInit (s : State) : Host.Outcome State Fault Refusal :=
  Ending.settle s <|
    match s.newCursor with
    | .ok c => .complete .ok { s with rd := c }
    | .error c => .raise c

/-- RD.BITS n (R142). -/
def execRdBits (n : BitVec 6) (s : State) : Host.Outcome State Fault Refusal :=
  Ending.settle s <|
    if n.toNat < 1 ∨ Config.bitsMax < n.toNat then .raise .illegalOperand
    else s.readField n.toNat

/-- RD.BIT (R145). -/
def execRdBit (s : State) : Host.Outcome State Fault Refusal :=
  Ending.settle s (s.readField 1)

/-- RD.SKIP n (R146): a skip past the capacity changes nothing (R147). -/
def execRdSkip (n : BitVec 24) (s : State) : Host.Outcome State Fault Refusal :=
  Ending.settle s <|
    if s.rd.cap.toNat < s.rd.pos.toNat + n.toNat then .complete .ok s
    else .complete .ok
      { s with rd := { s.rd with pos := BitVec.ofNat 32 (s.rd.pos.toNat + n.toNat) } }

end Sys2Proof.Machine
end

