-- ==== Sys2Proof/Machine/BitWriter.lean ====
section
/-! DEFINITION. The bit writer's commands: WR.INIT and WR.BITS (41_bitio.md R150, R152). -/

namespace Sys2Proof.Machine

/-- WR.INIT (R150). -/
def execWrInit (s : State) : Host.Outcome State Fault Refusal :=
  Ending.settle s <|
    match s.newCursor with
    | .ok c => .complete .ok { s with wr := c }
    | .error c => .raise c

/-- WR.BITS n (R152): the low n bits of A. -/
def execWrBits (n : BitVec 6) (s : State) : Host.Outcome State Fault Refusal :=
  Ending.settle s <|
    if n.toNat < 1 ∨ Config.bitsMax < n.toNat then .raise .illegalOperand
    else s.emitting (valueBits n.toNat s.opndA) id

end Sys2Proof.Machine
end

