-- ==== Sys2Proof/Machine/ExpGolomb.lean ====
section
/-! DEFINITION. The exp-Golomb decoder: RD.UE and RD.SE (42_expgolomb.md R170 to R176). -/

namespace Sys2Proof.Machine

/-- The prefix loop of R170 from position p with k zero bits read: the position after the terminating 1 bit
and the number of zero bits. fuel is how many more bits may be read before the cap (R171): after it the
32nd zero bit has been read. -/
def State.uePrefix (s : State) : (fuel p k : Nat) → Except Code (Nat × Nat)
  | 0, _, _ => .error .decodeError
  | fuel + 1, p, k =>
    match s.take p 1 with
    | .error c => .error c
    | .ok b => if b = 1 then .ok (p + 1, k) else s.uePrefix fuel (p + 1) (k + 1)

/-- The n bits from the local position p, taken one at a time: the capacity check and the admission of each bit
come in stream order, as the last paragraph of R266 says of the two decoders, where R170 writes one Take(n)
(DEDUCED, entry 11). -/
def State.takeEach (s : State) (p : Nat) : Nat → Except Code Nat
  | 0 => .ok 0
  | n + 1 =>
    match s.take p 1 with
    | .error c => .error c
    | .ok b =>
      match s.takeEach (p + 1) n with
      | .error c => .error c
      | .ok v => .ok (b * 2 ^ n + v)

/-- The code at RD_POS: its unsigned value and the position after it (R170). -/
def State.ueCode (s : State) : Except Code (Nat × Nat) :=
  match s.uePrefix Config.ueZeroCap s.rd.pos.toNat 0 with
  | .error c => .error c
  | .ok (p, k) =>
    match s.takeEach p k with
    | .error c => .error c
    | .ok suffix => .ok (suffix + 2 ^ k - 1, p + k)

/-- How many of the n bits from the local position p can be taken before one raises (R143). -/
def State.takable (s : State) (p : Nat) : Nat → Nat
  | 0 => 0
  | n + 1 =>
    match s.take p 1 with
    | .error _ => 0
    | .ok _ => s.takable (p + 1) n + 1

/-- The bits the decoding at RD_POS takes, whether it then completes or raises: the zeros up to the first bit
that raises or the 32nd zero (R171), else the prefix and as much of the suffix as can be taken. -/
def State.ueTaken (s : State) : Nat :=
  match s.uePrefix Config.ueZeroCap s.rd.pos.toNat 0 with
  | .error _ => s.takable s.rd.pos.toNat Config.ueZeroCap
  | .ok (p, k) => p - s.rd.pos.toNat + s.takable p k

/-- The signed value of the unsigned code value r (R175). -/
def seValue (r : Nat) : Int :=
  if r % 2 = 1 then (r + 1) / 2 else -(r / 2)

/-- RD.UE (R170). -/
def execRdUe (s : State) : Host.Outcome State Fault Refusal :=
  Ending.settle s <|
    match s.ueCode with
    | .ok (r, p) => .complete .ok (s.deliver (BitVec.ofNat 32 r) p)
    | .error c => .raise c

/-- RD.SE (R175). -/
def execRdSe (s : State) : Host.Outcome State Fault Refusal :=
  Ending.settle s <|
    match s.ueCode with
    | .ok (r, p) => .complete .ok (s.deliver (BitVec.ofInt 32 (seValue r)) p)
    | .error c => .raise c

end Sys2Proof.Machine
end

