-- ==== Sys2Proof/Decode.lean ====
section
/-! DEFINITION. The command decoder and encoder, from the formats of 30_encoding.md R115 and the opcode map
of R122. A command is one 32-bit register write, transferred whole (10_state.md R35), so the decoder reads
a word and no byte order arises. -/

namespace Sys2Proof

/-- What a command word stands for: a command, or one of the two ways a word is refused by name. -/
inductive Decoded where
  | instr (i : Instr)
  /-- The opcode is reserved (R123). -/
  | reservedOpcode
  /-- The opcode is defined and a bit its format marks 0 is 1 (R124). -/
  | reservedBits
deriving DecidableEq, Repr

/-- Bits 31:24, the opcode (R110). -/
def opField (w : Word) : BitVec 8 := w.extractLsb' 24 8

/-- Bits 23:0, the immediate (R110). -/
def immField (w : Word) : BitVec 24 := w.extractLsb' 0 24

/-- Format N: the whole immediate is reserved. -/
def decodeN (imm : BitVec 24) (i : Instr) : Decoded :=
  if imm = 0 then .instr i else .reservedBits

/-- Format B: imm[5:0] is the count, imm[23:6] is reserved. -/
def decodeB (imm : BitVec 24) (mk : BitVec 6 → Instr) : Decoded :=
  if imm.extractLsb' 6 18 = 0 then .instr (mk (imm.extractLsb' 0 6)) else .reservedBits

/-- Format F: imm[2] is AU, imm[0] is VI, imm[1] and imm[23:3] are reserved. -/
def decodeF (imm : BitVec 24) (mk : Bool → Bool → Instr) : Decoded :=
  if imm.extractLsb' 3 21 = 0 ∧ imm.getLsbD 1 = false then
    .instr (mk (imm.getLsbD 2) (imm.getLsbD 0))
  else .reservedBits

/-- Format T: imm[4:0] is the tag type, imm[23:5] is reserved. -/
def decodeT (imm : BitVec 24) (mk : BitVec 5 → Instr) : Decoded :=
  if imm.extractLsb' 5 19 = 0 then .instr (mk (imm.extractLsb' 0 5)) else .reservedBits

/-- Format A: imm[7:0] is the packet type, imm[23:8] is reserved. -/
def decodeA (imm : BitVec 24) (mk : BitVec 8 → Instr) : Decoded :=
  if imm.extractLsb' 8 16 = 0 then .instr (mk (imm.extractLsb' 0 8)) else .reservedBits

/-- Format V: imm[11:8] is the frame type, imm[7:0] the packet type, imm[23:12] is reserved. -/
def decodeV (imm : BitVec 24) (mk : BitVec 4 → BitVec 8 → Instr) : Decoded :=
  if imm.extractLsb' 12 12 = 0 then
    .instr (mk (imm.extractLsb' 8 4) (imm.extractLsb' 0 8))
  else .reservedBits

/-- The command a word stands for: the opcode selects the row of R122 (R111), then the reserved bits of
its format are checked (R124). Format S has no reserved bit. -/
def decode (w : Word) : Decoded :=
  match (opField w).toNat with
  | 0x01 => decodeN (immField w) .rdInit
  | 0x02 => decodeB (immField w) .rdBits
  | 0x03 => decodeN (immField w) .rdBit
  | 0x04 => .instr (.rdSkip (immField w))
  | 0x05 => decodeN (immField w) .rdUe
  | 0x06 => decodeN (immField w) .rdSe
  | 0x10 => decodeN (immField w) .wrInit
  | 0x11 => decodeB (immField w) .wrBits
  | 0x20 => decodeN (immField w) .scFind
  | 0x21 => decodeN (immField w) .splInit
  | 0x22 => decodeN (immField w) .splNext
  | 0x28 => decodeN (immField w) .rbspExtract
  | 0x30 => decodeF (immField w) .flvFhdr
  | 0x31 => decodeT (immField w) .flvThdr
  | 0x32 => decodeA (immField w) .flvAhdr
  | 0x33 => decodeV (immField w) .flvVhdr
  | 0x34 => decodeN (immField w) .flvPayload
  | 0x35 => decodeN (immField w) .flvPnal
  | 0x36 => decodeN (immField w) .flvPadts
  | 0x37 => decodeN (immField w) .flvTrailer
  | _ => .reservedOpcode

/-- The opcode of a command (R122). -/
def opcodeOf : Instr → BitVec 8
  | .rdInit => 0x01
  | .rdBits _ => 0x02
  | .rdBit => 0x03
  | .rdSkip _ => 0x04
  | .rdUe => 0x05
  | .rdSe => 0x06
  | .wrInit => 0x10
  | .wrBits _ => 0x11
  | .scFind => 0x20
  | .splInit => 0x21
  | .splNext => 0x22
  | .rbspExtract => 0x28
  | .flvFhdr _ _ => 0x30
  | .flvThdr _ => 0x31
  | .flvAhdr _ => 0x32
  | .flvVhdr _ _ => 0x33
  | .flvPayload => 0x34
  | .flvPnal => 0x35
  | .flvPadts => 0x36
  | .flvTrailer => 0x37

/-- The flags byte of format F: bit 2 has-audio, bit 0 has-video, all else 0 (R116). -/
def flagsByte (au vi : Bool) : BitVec 8 :=
  (0 : BitVec 5) ++ BitVec.ofBool au ++ (0 : BitVec 1) ++ BitVec.ofBool vi

/-- The immediate of a command, in the layout of its format (R115). -/
def immOf : Instr → BitVec 24
  | .rdBits n => (0 : BitVec 18) ++ n
  | .rdSkip n => n
  | .wrBits n => (0 : BitVec 18) ++ n
  | .flvFhdr au vi => (0 : BitVec 16) ++ flagsByte au vi
  | .flvThdr t => (0 : BitVec 19) ++ t
  | .flvAhdr p => (0 : BitVec 16) ++ p
  | .flvVhdr ft p => (0 : BitVec 12) ++ ft ++ p
  | .rdInit => 0
  | .rdBit => 0
  | .rdUe => 0
  | .rdSe => 0
  | .wrInit => 0
  | .scFind => 0
  | .splInit => 0
  | .splNext => 0
  | .rbspExtract => 0
  | .flvPayload => 0
  | .flvPnal => 0
  | .flvPadts => 0
  | .flvTrailer => 0

/-- The command word of a command (R110). -/
def encode (i : Instr) : Word := opcodeOf i ++ immOf i

/-- The instruction the decoder reads from the low nbits of w, the bits above being 0. Every row of the
opcode table is one 32-bit word. -/
def decodeTableWord (nbits w : Nat) : Option Instr :=
  match decode (BitVec.ofNat 32 (w % 2 ^ nbits)) with
  | .instr i => some i
  | .reservedOpcode => none
  | .reservedBits => none

end Sys2Proof
end

