-- ==== Sys2Proof/Machine/Framer.lean ====
section
/-! DEFINITION. The FLV tag framer: FLV.FHDR, FLV.THDR, FLV.AHDR, FLV.VHDR, FLV.PAYLOAD, FLV.PNAL, FLV.PADTS,
FLV.TRAILER (45_flv_framer.md R220 to R253). Each emits its whole output once (R220). -/

namespace Sys2Proof.Machine

/-- The 13 bytes of FLV.FHDR: signature, version, flags, dataOffset 9, PreviousTagSize0 (R221). -/
def fileHeader (au vi : Bool) : List Byte :=
  [0x46, 0x4C, 0x56, 0x01, flagsByte au vi] ++ beBytes 4 9 ++ beBytes 4 0

/-- FLV.FHDR flags (R221). -/
def execFlvFhdr (au vi : Bool) (s : State) : Host.Outcome State Fault Refusal :=
  Ending.settle s (s.emit (fileHeader au vi))

/-- The 11 bytes of FLV.THDR: type, dataSize, the low 24 bits of the timestamp, its bits 31:24, streamID 0
(R225, R227). -/
def tagHeader (tagType : BitVec 5) (dataSize timestamp : Nat) : List Byte :=
  [tagType.setWidth 8] ++ beBytes 3 dataSize ++ beBytes 3 (timestamp % 2 ^ 24)
    ++ [BitVec.ofNat 8 (timestamp / 2 ^ 24)] ++ [0x00, 0x00, 0x00]

/-- FLV.THDR type (R225): tag types 8, 9 and 18 only (R226). -/
def execFlvThdr (tagType : BitVec 5) (s : State) : Host.Outcome State Fault Refusal :=
  Ending.settle s <|
    if tagType ≠ 8 ∧ tagType ≠ 9 ∧ tagType ≠ 18 then .raise .illegalOperand
    else if 2 ^ 24 ≤ s.opndA then .raise .illegalOperand
    else s.emit (tagHeader tagType s.opndA s.opndB)

/-- FLV.AHDR pkt (R228): the first byte is always AF (R229). -/
def execFlvAhdr (pkt : BitVec 8) (s : State) : Host.Outcome State Fault Refusal :=
  Ending.settle s <|
    if 1 < pkt.toNat then .raise .illegalOperand
    else s.emit [0xAF, pkt]

/-- The 5 bytes of FLV.VHDR: frame type and codec id 7, packet type, 24-bit composition time (R231, R234). -/
def videoHeader (ft : BitVec 4) (pkt : BitVec 8) (c : Nat) : List Byte :=
  [ft ++ (7 : BitVec 4), pkt] ++ beBytes 3 c

/-- FLV.VHDR ft, pkt (R231): a composition time only in a NALU tag (R233). -/
def execFlvVhdr (ft : BitVec 4) (pkt : BitVec 8) (s : State) :
    Host.Outcome State Fault Refusal :=
  Ending.settle s <|
    if 2 < pkt.toNat then .raise .illegalOperand
    else if pkt.toNat = 1 then
      if s.signedA < -2 ^ 23 ∨ 2 ^ 23 - 1 < s.signedA then .raise .illegalOperand
      else s.emit (videoHeader ft pkt (s.opndA % 2 ^ 24))
    else s.emit (videoHeader ft pkt 0)

/-- FLV.PAYLOAD (R236). -/
def execFlvPayload (s : State) : Host.Outcome State Fault Refusal :=
  Ending.settle s <|
    if !s.sourceFits then .raise .illegalOperand
    else if !s.sourceAdmitted then .raise .busError
    else s.emitCounted (s.snapshot 0) s.opndB

/-- FLV.PNAL (R238): a 4-byte big-endian length, then the unit. -/
def execFlvPnal (s : State) : Host.Outcome State Fault Refusal :=
  Ending.settle s <|
    if !s.sourceFits then .raise .illegalOperand
    else if !s.sourceAdmitted then .raise .busError
    else s.emitCounted (beBytes 4 s.opndB ++ s.snapshot 0) (s.opndB + 4)

/-- FLV.PADTS (R241): the frame without its first 7 bytes (R242). -/
def execFlvPadts (s : State) : Host.Outcome State Fault Refusal :=
  Ending.settle s <|
    if !s.sourceFits then .raise .illegalOperand
    else if s.opndB < Config.adtsHeaderBytes then .raise .decodeError
    else if !s.sourceAdmitted then .raise .busError
    else s.emitCounted (s.snapshot Config.adtsHeaderBytes) (s.opndB - Config.adtsHeaderBytes)

/-- FLV.TRAILER (R245): PreviousTagSize is 11 + dataSize. -/
def execFlvTrailer (s : State) : Host.Outcome State Fault Refusal :=
  Ending.settle s <|
    if 2 ^ 24 ≤ s.opndA then .raise .illegalOperand
    else s.emit (beBytes 4 (Config.tagHeaderBytes + s.opndA))

end Sys2Proof.Machine
end

