-- ==== Sys2Proof/Machine/Rbsp.lean ====
section
/-! DEFINITION. The RBSP emulation-byte stripper: RBSP.EXTRACT (44_rbsp.md R210 to R217). -/

namespace Sys2Proof.Machine

/-- The bytes of a payload without each 03 whose two predecessors in the payload are 00; b2 and b1 are the
two bytes before, where there are any (R211). -/
def stripAfter (b2 b1 : Option Byte) : List Byte → List Byte
  | [] => []
  | b :: rest =>
    if b = 3 ∧ b1 = some 0 ∧ b2 = some 0 then stripAfter b1 (some b) rest
    else b :: stripAfter b1 (some b) rest

/-- Strip(P) (R211). -/
def strip (payload : List Byte) : List Byte := stripAfter none none payload

/-- RBSP.EXTRACT (R210): the header byte is skipped (R212) and the stripped payload emitted. -/
def execRbspExtract (s : State) : Host.Outcome State Fault Refusal :=
  Ending.settle s <|
    if !s.sourceFits then .raise .illegalOperand
    else if s.opndB = 0 then .raise .decodeError
    else if !s.sourceAdmitted then .raise .busError
    else s.emitCounted (strip (s.snapshot 1)) (strip (s.snapshot 1)).length

end Sys2Proof.Machine
end

