-- ==== Sys2Proof/Machine/Splitter.lean ====
section
/-! DEFINITION. The Annex-B start-code splitter: SC.FIND, SPL.INIT, SPL.NEXT (43_nal_split.md R190 to R201). -/

namespace Sys2Proof.Machine

/-- The three bytes at q are 00 00 01, START_CODE of 00_scope.md R9. -/
def Memory.startCodeAt (m : Memory) (q : Nat) : Bool :=
  m.read q == 0 && m.read (q + 1) == 0 && m.read (q + 2) == 1

/-- FindSC(a, a + n): the first start code that lies inside the n bytes from a (R191). -/
def Memory.findSC (m : Memory) (a : Nat) : Nat → Option Nat
  | 0 => none
  | n + 1 =>
    if 3 ≤ n + 1 ∧ m.startCodeAt a = true then some a else Memory.findSC m (a + 1) n

/-- How many of the n bytes from s are left after the trailing zero bytes are trimmed (R193). -/
def Memory.trimmed (m : Memory) (s : Nat) : Nat → Nat
  | 0 => 0
  | n + 1 => if m.read (s + n) = 0 then Memory.trimmed m s n else n + 1

/-- Split(a, e) from just after a start code: the units of [s, e), empty ones dropped (R193, R194). Each turn
passes a start code, so fuel above e - s is enough. -/
def Memory.unitsFrom (m : Memory) (e : Nat) : (fuel s : Nat) → List (Nat × Nat)
  | 0, _ => []
  | fuel + 1, s =>
    match m.findSC s (e - s) with
    | none =>
      if m.trimmed s (e - s) = 0 then [] else [(s, m.trimmed s (e - s))]
    | some q =>
      if m.trimmed s (q - s) = 0 then Memory.unitsFrom m e fuel (q + 3)
      else (s, m.trimmed s (q - s)) :: Memory.unitsFrom m e fuel (q + 3)

/-- The units of [s, e) where s stands just after a start code (R193). -/
def Memory.unitsIn (m : Memory) (s e : Nat) : List (Nat × Nat) := m.unitsFrom e (e - s + 1) s

/-- Split(a, e): the NAL units of Mem[a .. e) as address and length, in order (R193). -/
def Memory.split (m : Memory) (a e : Nat) : List (Nat × Nat) :=
  match m.findSC a (e - a) with
  | none => []
  | some q => m.unitsIn (q + 3) e

/-- What one SPL.NEXT finds: where the scan stops, whether a start code was passed there, and the unit. -/
structure Found where
  cur : Nat
  active : Bool
  unit : Option (Nat × Nat)
deriving DecidableEq, Repr

/-- The loop of R198 from the scan address s to the end e. Each turn passes a start code, so fuel above e - s
is enough. -/
def Memory.nextUnit (m : Memory) (e : Nat) : (fuel s : Nat) → Found
  | 0, _ => { cur := e, active := false, unit := none }
  | fuel + 1, s =>
    match m.findSC s (e - s) with
    | none =>
      { cur := e
        active := false
        unit := if m.trimmed s (e - s) = 0 then none else some (s, m.trimmed s (e - s)) }
    | some q =>
      if m.trimmed s (q - s) = 0 then Memory.nextUnit m e fuel (q + 3)
      else { cur := q + 3, active := true, unit := some (s, m.trimmed s (q - s)) }

/-- SC.FIND (R190): RESULT is the address of the first start code. -/
def execScFind (s : State) : Host.Outcome State Fault Refusal :=
  Ending.settle s <|
    if !s.sourceFits then .raise .illegalOperand
    else if !s.sourceAdmitted then .raise .busError
    else
      match s.mem.findSC s.opndA s.opndB with
      | none => .complete .notFound s
      | some q => .complete .ok { s with result := BitVec.ofNat 32 q }

/-- SPL.INIT (R195). -/
def execSplInit (s : State) : Host.Outcome State Fault Refusal :=
  Ending.settle s <|
    if !s.sourceFits then .raise .illegalOperand
    else if !s.sourceAdmitted then .raise .busError
    else
      match s.mem.findSC s.opndA s.opndB with
      | none =>
        .complete .notFound
          { s with spl := {
              cur := BitVec.ofNat 32 (s.opndA + s.opndB)
              stop := BitVec.ofNat 32 (s.opndA + s.opndB)
              active := false } }
      | some q =>
        .complete .ok
          { s with spl := {
              cur := BitVec.ofNat 32 (q + 3)
              stop := BitVec.ofNat 32 (s.opndA + s.opndB)
              active := true } }

/-- The bytes SPL.NEXT reads, [SPL_CUR, SPL_END) (20_memory.md R82). -/
def State.scanRegion (s : State) : Region :=
  { start := s.spl.cur.toNat, len := s.spl.stop.toNat - s.spl.cur.toNat }

/-- What SPL.NEXT finds in s (R198). -/
def State.scan (s : State) : Found :=
  s.mem.nextUnit s.spl.stop.toNat (s.scanRegion.len + 1) s.spl.cur.toNat

/-- The unit (a, n) in the NAL registers, its type read from its header byte (10_state.md R54 to R56). -/
def State.nalOf (s : State) (a n : Nat) : Nal :=
  { addr := BitVec.ofNat 32 a
    len := BitVec.ofNat 32 n
    unitType := (s.mem.read a).extractLsb' 0 5 }

/-- SPL.NEXT (R198). -/
def execSplNext (s : State) : Host.Outcome State Fault Refusal :=
  Ending.settle s <|
    if !s.spl.active then .complete .notFound s
    else if !s.plat.admitsAll s.scanRegion then .raise .busError
    else
      let spl := { s.spl with cur := BitVec.ofNat 32 s.scan.cur, active := s.scan.active }
      match s.scan.unit with
      | none => .complete .notFound { s with spl := spl }
      | some (a, n) => .complete .ok { s with spl := spl, nal := s.nalOf a n }

end Sys2Proof.Machine
end

