-- ==== Sys2Proof/Machine/Dispatch.lean ====
section
/-! DEFINITION. The meaning of every command (30_encoding.md R114, R122): the step that performs it. -/

namespace Sys2Proof.Machine

def exec (i : Instr) (s : State) : Host.Outcome State Fault Refusal :=
  match i with
  | .rdInit => Sys2Proof.Machine.execRdInit s
  | .rdBits n => Sys2Proof.Machine.execRdBits n s
  | .rdBit => Sys2Proof.Machine.execRdBit s
  | .rdSkip n => Sys2Proof.Machine.execRdSkip n s
  | .rdUe => Sys2Proof.Machine.execRdUe s
  | .rdSe => Sys2Proof.Machine.execRdSe s
  | .wrInit => Sys2Proof.Machine.execWrInit s
  | .wrBits n => Sys2Proof.Machine.execWrBits n s
  | .scFind => Sys2Proof.Machine.execScFind s
  | .splInit => Sys2Proof.Machine.execSplInit s
  | .splNext => Sys2Proof.Machine.execSplNext s
  | .rbspExtract => Sys2Proof.Machine.execRbspExtract s
  | .flvFhdr au vi => Sys2Proof.Machine.execFlvFhdr au vi s
  | .flvThdr tagType => Sys2Proof.Machine.execFlvThdr tagType s
  | .flvAhdr pkt => Sys2Proof.Machine.execFlvAhdr pkt s
  | .flvVhdr ft pkt => Sys2Proof.Machine.execFlvVhdr ft pkt s
  | .flvPayload => Sys2Proof.Machine.execFlvPayload s
  | .flvPnal => Sys2Proof.Machine.execFlvPnal s
  | .flvPadts => Sys2Proof.Machine.execFlvPadts s
  | .flvTrailer => Sys2Proof.Machine.execFlvTrailer s

end Sys2Proof.Machine
end

