-- ==== Sys2Proof/Machine/Access.lean ====
section
/-! DEFINITION. The access sets of the commands (20_memory.md R82): which bytes of buffer memory a command,
performed in a given state, reads and writes. The host port needs them for the races of
70_reset_and_hazards.md R302 and the abandoned command of R291. -/

namespace Sys2Proof.Machine

/-- The reader bits a command consumes when it is performed in s: how far RD_POS moves (R82). -/
def bitsConsumed (i : Instr) (s : State) : Nat :=
  match exec i s with
  | .next t => t.rd.pos.toNat - s.rd.pos.toNat
  | .fault _ => 0
  | .refused _ => 0

/-- The writer bits a command emits when it is performed in s: how far WR_POS moves (R82). A command that
raises emits none (R158). -/
def bitsEmitted (i : Instr) (s : State) : Nat :=
  match exec i s with
  | .next t => t.wr.pos.toNat - s.wr.pos.toNat
  | .fault _ => 0
  | .refused _ => 0

/-- The bytes holding the next m reader bits. -/
def State.inSpan (s : State) (m : Nat) : Region := bitSpan s.rd.base.toNat s.rd.pos.toNat m

/-- The bytes holding the bits that RD.UE or RD.SE takes. A decoding that completes consumes just these; one that
raises consumes none in the end (R143), and these are the bits it took before it raised (DEDUCED, entry 10). -/
def State.codeSpan (s : State) : Region := s.inSpan s.ueTaken

/-- The bytes the command reads beside those it writes (R82). -/
def readSet (i : Instr) (s : State) : List Region :=
  match i with
  | .rdInit => []
  | .rdBits _ => [s.inSpan (bitsConsumed i s)]
  | .rdBit => [s.inSpan (bitsConsumed i s)]
  | .rdSkip _ => []
  | .rdUe => [s.codeSpan]
  | .rdSe => [s.codeSpan]
  | .wrInit => []
  | .wrBits _ => []
  | .scFind => [s.source]
  | .splInit => [s.source]
  | .splNext => if s.spl.active then [s.scanRegion] else []
  | .rbspExtract => [s.source]
  | .flvFhdr _ _ => []
  | .flvThdr _ => []
  | .flvAhdr _ => []
  | .flvVhdr _ _ => []
  | .flvPayload => [s.source]
  | .flvPnal => [s.source]
  | .flvPadts => [s.source]
  | .flvTrailer => []

/-- The bytes the command writes, which it also reads (R82, R102): those holding the bits it emits. -/
def writeSet (i : Instr) (s : State) : Region := s.outSpan (bitsEmitted i s)

/-- The address is in the access set of the pending command. A word that stands for no command touches no
memory. -/
def State.pendingTouches (s : State) (a : Nat) : Bool :=
  match decode s.cmd with
  | .instr i => (writeSet i s).holds a || (readSet i s).any fun r => r.holds a
  | .reservedOpcode => false
  | .reservedBits => false

/-- The bytes the pending command would write. -/
def State.pendingWrites (s : State) : Region :=
  match decode s.cmd with
  | .instr i => writeSet i s
  | .reservedOpcode => { start := 0, len := 0 }
  | .reservedBits => { start := 0, len := 0 }

end Sys2Proof.Machine
end

