-- ==== Sys2Proof/Machine/HostPort.lean ====
section
/-! DEFINITION. What the host does to the block (10_state.md R32 to R42, R61, R62): register reads and writes,
byte accesses to buffer memory (70_reset_and_hazards.md R302), waiting, and the two resets (R290, R291). -/

namespace Sys2Proof.Machine

/-- The value a register read returns (R32): CTRL and the reserved offsets read 0 (R37, R38). While BUSY = 1 it
is the value the register held before the pending command, as R301 says of a model (entry 7). -/
def readRegister (off : Nat) (s : State) : Word :=
  match off with
  | 0x04 => s.status.word
  | 0x08 => s.cmd
  | 0x0C => s.opa
  | 0x10 => s.opb
  | 0x14 => s.result
  | 0x18 => s.rd.base
  | 0x1C => s.rd.cap
  | 0x20 => s.rd.pos
  | 0x24 => s.wr.base
  | 0x28 => s.wr.cap
  | 0x2C => s.wr.pos
  | 0x30 => s.spl.cur
  | 0x34 => s.spl.stop
  | 0x38 => s.spl.activeWord
  | 0x3C => s.nal.addr
  | 0x40 => s.nal.len
  | 0x44 => s.nal.unitType.setWidth 32
  | _ => 0

/-- A hardware reset (R290): every register 0, memory as it was. Entry 12 says what this means for a command
that was pending. -/
def hardReset (s : State) : State := clearRegisters s

/-- A soft reset (R291): the reset of R290, and a pending command is abandoned, which leaves each byte of its
write set with a free value (entry 6). -/
def softReset (s : State) : State :=
  if s.status.busy then
    clearRegisters (freeBytes s.pendingWrites.start s.pendingWrites.len s)
  else clearRegisters s

/-- The effect of a register write (R32): CTRL (R38), STATUS (R40), CMD (R112), OPA and OPB (R33). Every other
offset is read-only or reserved and ignores it (R37, R62). -/
def writeRegister (off : Nat) (w : Word) (s : State) : State :=
  match off with
  | 0x00 => if w.getLsbD 0 then softReset s else s
  | 0x04 => clearSticky w s
  | 0x08 => issue w s
  | 0x0C => { s with opa := w }
  | 0x10 => { s with opb := w }
  | _ => s

/-- The window offset of an access of size bytes at a bus address, or why it is refused (R35). -/
def registerOffset (s : State) (addr size : Nat) : Except Refusal Nat :=
  if size ≠ 4 then .error .registerAccessSize
  else if addr < s.plat.regBase ∨ s.plat.regBase + Config.windowBytes ≤ addr then
    .error .outsideRegisterWindow
  else if (addr - s.plat.regBase) % 4 ≠ 0 then .error .registerMisaligned
  else .ok (addr - s.plat.regBase)

/-- The host is handed a value. -/
def answer (v : Word) (s : State) : State :=
  { s with env := { s.env with seen := v :: s.env.seen } }

/-- A host read of a byte of a busy command's access set returns a free value; every other byte is as memory
holds it (R302). -/
def hostReadByte (a : Nat) (s : State) : State :=
  if s.status.busy && s.pendingTouches a then
    answer ((Config.freeByte s.env.drawn).setWidth 32)
      { s with env := { s.env with drawn := s.env.drawn + 1 } }
  else answer ((s.mem.read a).setWidth 32) s

/-- A host write of a byte of a busy command's access set leaves that byte with a free value and marks the
race; every other byte takes the value written (R302). -/
def hostWriteByte (a : Nat) (v : Byte) (s : State) : State :=
  if s.status.busy && s.pendingTouches a then
    { freeBytes a 1 s with env := { (freeBytes a 1 s).env with raced := true } }
  else { s with mem := s.mem.write a v }

/-- One action of the host (R61). A wait while BUSY = 1 stays the next action: the host polls again. -/
def hostAct (act : HostAction) (s : State) : Host.Outcome State Fault Refusal :=
  match act with
  | .regRead addr size =>
    match registerOffset s addr size with
    | .ok off => .next (answer (readRegister off s) s)
    | .error r => .refused r
  | .regWrite addr size w =>
    match registerOffset s addr size with
    | .ok off => .next (writeRegister off w s)
    | .error r => .refused r
  | .memRead a =>
    if s.plat.admits a then .next (hostReadByte a s) else .fault .hostByteNotAdmitted
  | .memWrite a v =>
    if s.plat.admits a then .next (hostWriteByte a v s) else .fault .hostByteNotAdmitted
  | .wait =>
    if s.status.busy then
      .next { s with env := { s.env with queue := .wait :: s.env.queue } }
    else .next s
  | .hardReset => .next (hardReset s)

end Sys2Proof.Machine
end

