-- ==== Sys2Proof/Machine/Perform.lean ====
section
/-! DEFINITION. The block's one step: the pending command word is decoded and performed (30_encoding.md R111,
R114), with what a host write that raced with it leaves open (70_reset_and_hazards.md R302). -/

namespace Sys2Proof.Machine

/-- After a race every byte the command wrote holds a free value (R302, entry 9). -/
def settleRace (w : Region) :
    Host.Outcome State Fault Refusal → Host.Outcome State Fault Refusal
  | .next t => .next { freeBytes w.start w.len t with
      env := { (freeBytes w.start w.len t).env with raced := false } }
  | .fault f => .fault f
  | .refused r => .refused r

/-- The pending command is performed: a reserved opcode ends with ILLEGAL_COMMAND (R123), a reserved bit with
ILLEGAL_OPERAND (R124), and a command has its meaning (R114). -/
def perform (s : State) : Host.Outcome State Fault Refusal :=
  match decode s.cmd with
  | .reservedOpcode => .next (takeError .illegalCommand s)
  | .reservedBits => .next (takeError .illegalOperand s)
  | .instr i => if s.env.raced then settleRace (writeSet i s) (exec i s) else exec i s

end Sys2Proof.Machine
end

