-- ==== Sys2Proof/Machine/Step.lean ====
section
/-! DEFINITION. One step of the machine (10_state.md R30, 30_encoding.md R114, 70_reset_and_hazards.md R310). -/

namespace Sys2Proof.Machine

/-- One step. While a command is pending the host may act as often as the latency allows, and then the block
performs the command; with nothing left for the host to do the block performs it at once (R310, entry 5). An
idle block moves only when the host does (R281). -/
def step (s : State) : Host.Outcome State Fault Refusal :=
  match s.env.queue with
  | [] => if s.status.busy then perform s else .next s
  | act :: rest =>
    if s.status.busy then
      match s.env.delay with
      | 0 => perform s
      | d + 1 => hostAct act { s with env := { s.env with queue := rest, delay := d } }
    else hostAct act { s with env := { s.env with queue := rest } }

/-- s with the command word w accepted (R113) and its latency run out, so that the next step performs it. It
stands for the host's write of w to CMD; the block fetches nothing (20_memory.md R99, entry 4). -/
def State.withFetchWord (s : State) (nbits w : Nat) : State :=
  { accept (BitVec.ofNat 32 (w % 2 ^ nbits)) s with
    env := { (accept (BitVec.ofNat 32 (w % 2 ^ nbits)) s).env with delay := 0 } }

end Sys2Proof.Machine
end

