-- ==== Sys2Proof/Machine/HostProgram.lean ====
section
/-! DEFINITION. The host's program notation (30_encoding.md R130) and the pseudo-instructions (R131 to R133),
as the host actions they stand for. The lines `host: …` are host computation and have none. Each takes
REG_BASE, the bus address of the window. -/

namespace Sys2Proof.Machine

/-- `set.a v` (R130). -/
def setA (base : Nat) (v : Word) : HostAction := .regWrite (base + 0x0C) 4 v

/-- `set.b v` (R130). -/
def setB (base : Nat) (v : Word) : HostAction := .regWrite (base + 0x10) 4 v

/-- `cmd w` (R130). -/
def cmdWord (base : Nat) (w : Word) : HostAction := .regWrite (base + 0x08) 4 w

/-- `stat.clr m` (R130). -/
def statClr (base : Nat) (m : Word) : HostAction := .regWrite (base + 0x04) 4 m

/-- `srst` (R130). -/
def srst (base : Nat) : HostAction := .regWrite base 4 1

/-- An upper-case mnemonic with its fields: `cmd w` and then `wait` (R130). -/
def issueCommand (base : Nat) (i : Instr) : List HostAction :=
  [cmdWord base (encode i), .wait]

/-- `rd.init base, len` (R131). -/
def rdInitAt (base : Nat) (a n : Word) : List HostAction :=
  [setA base a, setB base n] ++ issueCommand base .rdInit

/-- `wr.init base, len` (R131). -/
def wrInitAt (base : Nat) (a n : Word) : List HostAction :=
  [setA base a, setB base n] ++ issueCommand base .wrInit

/-- `wr.bits n, v` (R131). -/
def wrBitsOf (base : Nat) (n : BitVec 6) (v : Word) : List HostAction :=
  setA base v :: issueCommand base (.wrBits n)

/-- `wr.u8 v` (R131). -/
def wrU8 (base : Nat) (v : Word) : List HostAction := wrBitsOf base 8 v

/-- `wr.u16 v` (R131). -/
def wrU16 (base : Nat) (v : Word) : List HostAction := wrBitsOf base 16 v

/-- `wr.u24 v` (R131). -/
def wrU24 (base : Nat) (v : Word) : List HostAction := wrBitsOf base 24 v

/-- `wr.u32 v` (R131). -/
def wrU32 (base : Nat) (v : Word) : List HostAction := wrBitsOf base 32 v

/-- `sc.find a, n` (R131). -/
def scFindAt (base : Nat) (a n : Word) : List HostAction :=
  [setA base a, setB base n] ++ issueCommand base .scFind

/-- `spl.init a, n` (R131). -/
def splInitAt (base : Nat) (a n : Word) : List HostAction :=
  [setA base a, setB base n] ++ issueCommand base .splInit

/-- `rbsp.extract a, n` (R131). -/
def rbspExtractAt (base : Nat) (a n : Word) : List HostAction :=
  [setA base a, setB base n] ++ issueCommand base .rbspExtract

/-- `flv.thdr type, size, ts` (R131). -/
def flvThdrOf (base : Nat) (t : BitVec 5) (size ts : Word) : List HostAction :=
  [setA base size, setB base ts] ++ issueCommand base (.flvThdr t)

/-- `flv.vhdr ft, pkt, cts` (R131). -/
def flvVhdrOf (base : Nat) (ft : BitVec 4) (pkt : BitVec 8) (cts : Word) : List HostAction :=
  setA base cts :: issueCommand base (.flvVhdr ft pkt)

/-- `flv.payload a, n` (R131). -/
def flvPayloadAt (base : Nat) (a n : Word) : List HostAction :=
  [setA base a, setB base n] ++ issueCommand base .flvPayload

/-- `flv.pnal a, n` (R131). -/
def flvPnalAt (base : Nat) (a n : Word) : List HostAction :=
  [setA base a, setB base n] ++ issueCommand base .flvPnal

/-- `flv.padts a, n` (R131). -/
def flvPadtsAt (base : Nat) (a n : Word) : List HostAction :=
  [setA base a, setB base n] ++ issueCommand base .flvPadts

/-- `flv.trailer size` (R131). -/
def flvTrailerOf (base : Nat) (size : Word) : List HostAction :=
  setA base size :: issueCommand base .flvTrailer

/-- `clr.derr` (R131). -/
def clrDerr (base : Nat) : HostAction := statClr base 0x4

/-- `clr.ovr` (R131). -/
def clrOvr (base : Nat) : HostAction := statClr base 0x8

/-- `wr.ue v` (R132): k zero bits, then the k + 1 bits of v + 1, where k is floor(log2(v + 1)). There is no
expansion for v above 2^32 - 2. -/
def wrUe (base v : Nat) : Option (List HostAction) :=
  if 2 ^ 32 - 2 < v then none
  else
    let m := v + 1
    let k := Nat.log2 m
    some ((if k = 0 then [] else wrBitsOf base (BitVec.ofNat 6 k) 0)
      ++ wrBitsOf base (BitVec.ofNat 6 (k + 1)) (BitVec.ofNat 32 m))

/-- The unsigned code value of a signed value: 2v - 1 for v > 0, -2v otherwise (R133). -/
def seCodeNum (v : Int) : Nat :=
  if 0 < v then (2 * v - 1).toNat else (-2 * v).toNat

/-- `wr.se v` (R133), for v from -(2^31 - 1) to 2^31 - 1. -/
def wrSe (base : Nat) (v : Int) : Option (List HostAction) :=
  if v < -(2 ^ 31 - 1) ∨ 2 ^ 31 - 1 < v then none else wrUe base (seCodeNum v)

end Sys2Proof.Machine
end

