-- ==== Sys2Proof/WellFormed.lean ====
section
/-! DEFINITION. Which commands carry immediate values that their rule accepts (30_encoding.md R118, R119,
45_flv_framer.md R226). The widths of the fields are in the syntax; a command that fails this check can
still be encoded and issued, and ends with ILLEGAL_OPERAND. -/

namespace Sys2Proof

/-- The immediate of the command has a legal value. Formats N, S and F have no illegal value. -/
def Instr.wellFormed : Instr → Bool
  | .rdInit => true
  | .rdBits n => decide (1 ≤ n.toNat) && decide (n.toNat ≤ Config.bitsMax)
  | .rdBit => true
  | .rdSkip _ => true
  | .rdUe => true
  | .rdSe => true
  | .wrInit => true
  | .wrBits n => decide (1 ≤ n.toNat) && decide (n.toNat ≤ Config.bitsMax)
  | .scFind => true
  | .splInit => true
  | .splNext => true
  | .rbspExtract => true
  | .flvFhdr _ _ => true
  | .flvThdr t => t == 8 || t == 9 || t == 18
  | .flvAhdr p => decide (p.toNat ≤ 1)
  | .flvVhdr _ p => decide (p.toNat ≤ 2)
  | .flvPayload => true
  | .flvPnal => true
  | .flvPadts => true
  | .flvTrailer => true

end Sys2Proof
end

