-- ==== Sys2Proof/Safety.lean ====
section
/-! DEFINITION. The terms the claims use: the invariant of the block, the tables of the spec that speak of
every command, and what an emission, a read, a start code and an exp-Golomb code are in terms of single
bits and bytes of memory. -/

namespace Sys2Proof.Safety

open Sys2Proof.Machine

/-! ## The invariant -/

/-- A cursor's registers: the position inside the capacity, the capacity whole bytes, the buffer below 2^32
(10_state.md R44, R46, R48, R50; 20_memory.md R88). -/
structure CursorInv (c : Cursor) : Prop where
  inside : c.pos.toNat ≤ c.cap.toNat
  whole : c.cap.toNat % 8 = 0
  fits : c.base.toNat + c.cap.toNat / 8 < 2 ^ 32

/-- What holds of every state a run reaches. -/
structure Inv (s : State) : Prop where
  /-- Memory has its canonical form. -/
  mem : s.mem.wf = true
  /-- The reader cursor (R44, R46). -/
  rd : CursorInv s.rd
  /-- The writer cursor (R48, R50). -/
  wr : CursorInv s.wr
  /-- The scan address does not pass the end (R51, R52). -/
  splIn : s.spl.cur.toNat ≤ s.spl.stop.toNat
  /-- An exhausted splitter stands at the end (R195, R198; 93_implementation_defined.md row 30). -/
  splDone : s.spl.active = false → s.spl.cur = s.spl.stop
  /-- NAL_LEN is at least 1 once SPL.NEXT has written it (R55, R194). -/
  nal : s.nal.len = 0 → s.nal.addr = 0 ∧ s.nal.unitType = 0
  /-- The block is halted exactly when the last code was fatal (R262). -/
  halted : s.status.halted = s.status.code.fatal
  /-- No command is pending in a halted block (R112, R262). -/
  busy : s.status.busy = true → s.status.halted = false

/-! ## Tables over all commands -/

/-- The opcodes R123 reserves. -/
def OpcodeReserved (op : Nat) : Prop :=
  op = 0 ∨ (0x07 ≤ op ∧ op ≤ 0x0F) ∨ (0x12 ≤ op ∧ op ≤ 0x1F) ∨ (0x23 ≤ op ∧ op ≤ 0x27) ∨
    (0x29 ≤ op ∧ op ≤ 0x2F) ∨ (0x38 ≤ op ∧ op ≤ 0xFF)

/-- The immediate bits that the format of an opcode marks 0 (R115): 0 in the mask column of the opcode
table means a free bit. Opcodes that R123 reserves have no format. -/
def reservedMask (op : Nat) : BitVec 24 :=
  if op = 0x02 ∨ op = 0x11 then 0xFFFFC0
  else if op = 0x04 then 0x000000
  else if op = 0x30 then 0xFFFFFA
  else if op = 0x31 then 0xFFFFE0
  else if op = 0x32 then 0xFFFF00
  else if op = 0x33 then 0xFFF000
  else 0xFFFFFF

/-- The codes a command can end with (60_exceptions.md R261), reserved bits apart, which are no command. -/
def mayEnd : Instr → Code → Bool
  | .rdInit, c => c == .ok || c == .illegalOperand
  | .rdBits _, c => c == .ok || c == .decodeError || c == .illegalOperand || c == .busError
  | .rdBit, c => c == .ok || c == .decodeError || c == .busError
  | .rdSkip _, c => c == .ok
  | .rdUe, c => c == .ok || c == .decodeError || c == .busError
  | .rdSe, c => c == .ok || c == .decodeError || c == .busError
  | .wrInit, c => c == .ok || c == .illegalOperand
  | .wrBits _, c => c == .ok || c == .capacityError || c == .illegalOperand || c == .busError
  | .scFind, c => c == .ok || c == .notFound || c == .illegalOperand || c == .busError
  | .splInit, c => c == .ok || c == .notFound || c == .illegalOperand || c == .busError
  | .splNext, c => c == .ok || c == .notFound || c == .busError
  | .rbspExtract, c =>
    c == .ok || c == .decodeError || c == .capacityError || c == .illegalOperand || c == .busError
  | .flvFhdr _ _, c => c == .ok || c == .capacityError || c == .busError
  | .flvThdr _, c => c == .ok || c == .capacityError || c == .illegalOperand || c == .busError
  | .flvAhdr _, c => c == .ok || c == .capacityError || c == .illegalOperand || c == .busError
  | .flvVhdr _ _, c => c == .ok || c == .capacityError || c == .illegalOperand || c == .busError
  | .flvPayload, c => c == .ok || c == .capacityError || c == .illegalOperand || c == .busError
  | .flvPnal, c => c == .ok || c == .capacityError || c == .illegalOperand || c == .busError
  | .flvPadts, c =>
    c == .ok || c == .decodeError || c == .capacityError || c == .illegalOperand || c == .busError
  | .flvTrailer, c => c == .ok || c == .capacityError || c == .illegalOperand || c == .busError

/-- The commands that write RESULT (10_state.md R34). -/
def writesResult : Instr → Bool
  | .rdInit => false
  | .rdBits _ => true
  | .rdBit => true
  | .rdSkip _ => false
  | .rdUe => true
  | .rdSe => true
  | .wrInit => false
  | .wrBits _ => false
  | .scFind => true
  | .splInit => false
  | .splNext => false
  | .rbspExtract => true
  | .flvFhdr _ _ => false
  | .flvThdr _ => false
  | .flvAhdr _ => false
  | .flvVhdr _ _ => false
  | .flvPayload => true
  | .flvPnal => true
  | .flvPadts => true
  | .flvTrailer => false

/-- The commands that move RD_POS forward (R45). -/
def readsCursor : Instr → Bool
  | .rdInit => false
  | .rdBits _ => true
  | .rdBit => true
  | .rdSkip _ => true
  | .rdUe => true
  | .rdSe => true
  | .wrInit => false
  | .wrBits _ => false
  | .scFind => false
  | .splInit => false
  | .splNext => false
  | .rbspExtract => false
  | .flvFhdr _ _ => false
  | .flvThdr _ => false
  | .flvAhdr _ => false
  | .flvVhdr _ _ => false
  | .flvPayload => false
  | .flvPnal => false
  | .flvPadts => false
  | .flvTrailer => false

/-- The commands that emit through the writer cursor (R49, R158). -/
def emitsBits : Instr → Bool
  | .rdInit => false
  | .rdBits _ => false
  | .rdBit => false
  | .rdSkip _ => false
  | .rdUe => false
  | .rdSe => false
  | .wrInit => false
  | .wrBits _ => true
  | .scFind => false
  | .splInit => false
  | .splNext => false
  | .rbspExtract => true
  | .flvFhdr _ _ => true
  | .flvThdr _ => true
  | .flvAhdr _ => true
  | .flvVhdr _ _ => true
  | .flvPayload => true
  | .flvPnal => true
  | .flvPadts => true
  | .flvTrailer => true

/-! ## How a command ends -/

/-- The next step is the block's: a command is pending and its latency has run out, or the host has nothing
left to do (30_encoding.md R114, 70_reset_and_hazards.md R310). -/
def BlockMoves (s : State) : Prop :=
  s.status.busy = true ∧ (s.env.queue = [] ∨ s.env.delay = 0)

/-- Performed in s, the command raises c (R264). -/
def Raises (i : Instr) (s : State) (c : Code) : Prop := exec i s = .next (takeError c s)

/-- What is written between s and t: n bits at WR_POS, bit j being f j, no other bit of memory and no other
register of the writer but WR_POS (R158, R102). -/
structure EmittedBits (s t : State) (n : Nat) (f : Nat → Bool) : Prop where
  wrote : ∀ j, j < n → t.mem.bit s.wr.base.toNat (s.wr.pos.toNat + j) = f j
  otherBits : ∀ p, p < s.wr.pos.toNat ∨ s.wr.pos.toNat + n ≤ p →
    t.mem.bit s.wr.base.toNat p = s.mem.bit s.wr.base.toNat p
  otherBytes : ∀ a, (s.outSpan n).holds a = false → t.mem.read a = s.mem.read a
  canonical : t.mem.wf = true
  cursor : t.wr = { s.wr with pos := BitVec.ofNat 32 (s.wr.pos.toNat + n) }

/-- The last checks and the effect of a command that emits n bits (R158, R266 steps 8 to 10): past the
capacity it raises CAPACITY_ERROR; with a byte that is not admitted, BUS_ERROR; else it completes with OK,
having emitted the bits and left RESULT as given, and every other field is as before. -/
def EndsInEmission (i : Instr) (s : State) (n : Nat) (f : Nat → Bool) (result : Word) : Prop :=
  if s.wr.cap.toNat < s.wr.pos.toNat + n then Raises i s .capacityError
  else if s.plat.admitsAll (s.outSpan n) = false then Raises i s .busError
  else ∃ t, exec i s = .next t ∧ EmittedBits s t n f ∧
    t = { s with
      status := s.status.completed .ok, mem := t.mem, wr := t.wr, result := result }

/-- Bit j of a byte sequence, each byte most significant bit first (R85). -/
def byteBit (bytes : List Byte) (j : Nat) : Bool :=
  (bytes.getD (j / 8) 0).getLsbD (7 - j % 8)

/-- EndsInEmission for whole bytes (R220). -/
def EndsInBytes (i : Instr) (s : State) (bytes : List Byte) (result : Word) : Prop :=
  EndsInEmission i s (8 * bytes.length) (byteBit bytes) result

/-- The checks and the effect of a command that reads n bits at RD_POS (R142): too few bits left raise
DECODE_ERROR; a byte that is not admitted, BUS_ERROR; else RESULT is those bits, the first the most
significant, zero-extended, RD_POS moves past them, and every other field is as before. -/
def EndsInField (i : Instr) (s : State) (n : Nat) : Prop :=
  if s.rd.cap.toNat < s.rd.pos.toNat + n then Raises i s .decodeError
  else if s.plat.admitsAll (s.inSpan n) = false then Raises i s .busError
  else ∃ t, exec i s = .next t ∧ t.result.toNat < 2 ^ n ∧
    (∀ j, j < n →
      t.result.getLsbD (n - 1 - j) = s.mem.bit s.rd.base.toNat (s.rd.pos.toNat + j)) ∧
    t = { s with
      status := s.status.completed .ok
      result := t.result
      rd := { s.rd with pos := BitVec.ofNat 32 (s.rd.pos.toNat + n) } }

/-! ## Exp-Golomb codes -/

/-- The number k of leading zero bits of the code of v: floor(log2(v + 1)) (42_expgolomb.md R172). -/
def codeZeros (v : Nat) : Nat := Nat.log2 (v + 1)

/-- The bits of memory from position p of the buffer at base are the code of v: k zero bits, then the k + 1
bits of v + 1 (R172). -/
def CodeAt (m : Memory) (base p v : Nat) : Prop :=
  (∀ j, j < codeZeros v → m.bit base (p + j) = false) ∧
    ∀ j, j ≤ codeZeros v →
      m.bit base (p + codeZeros v + j) = (v + 1).testBit (codeZeros v - j)

/-- The length of the code of v in bits (R172). -/
def codeBits (v : Nat) : Nat := 2 * codeZeros v + 1

/-! ## Start codes and NAL units -/

/-- The bytes at q are 00 00 01 (43_nal_split.md R191). -/
def StartCode (m : Memory) (q : Nat) : Prop :=
  m.read q = 0 ∧ m.read (q + 1) = 0 ∧ m.read (q + 2) = 1

/-- q is FindSC(a, e): the smallest address of a start code inside [a, e) (R191). -/
def FirstStartCode (m : Memory) (a e q : Nat) : Prop :=
  a ≤ q ∧ q + 3 ≤ e ∧ StartCode m q ∧ ∀ q', a ≤ q' → q' < q → ¬ StartCode m q'

/-- FindSC(a, e) is none (R191). -/
def NoStartCode (m : Memory) (a e : Nat) : Prop :=
  ∀ q, a ≤ q → q + 3 ≤ e → ¬ StartCode m q

/-- The address just after a start code that lies at lo or later (R193). -/
def AfterStartCode (m : Memory) (lo a : Nat) : Prop := lo + 3 ≤ a ∧ StartCode m (a - 3)

/-- The span that starts at a ends at stop: at the next start code, or at e where there is none (R193). -/
def SpanEnd (m : Memory) (e a stop : Nat) : Prop :=
  FirstStartCode m a e stop ∨ NoStartCode m a e ∧ stop = e

/-- The n bytes from a are what the trim leaves of the span that starts at a: at least one byte, the last not
zero, and every byte from there to the end of the span zero (R193, R194). -/
def TrimmedUnit (m : Memory) (e a n : Nat) : Prop :=
  1 ≤ n ∧ m.read (a + n - 1) ≠ 0 ∧
    ∃ stop, SpanEnd m e a stop ∧ stop ≤ e ∧ a + n ≤ stop ∧
      ∀ x, a + n ≤ x → x < stop → m.read x = 0

/-- (a, n) is a unit that a scan from cur to e has still to return: its span starts at cur or just after a later
start code (R193, R198). -/
def UnitAhead (m : Memory) (cur e a n : Nat) : Prop :=
  (a = cur ∨ AfterStartCode m cur a) ∧ TrimmedUnit m e a n

/-- The units the splitter has still to return (R198). -/
def unitsLeft (s : State) : List (Nat × Nat) :=
  if s.spl.active then s.mem.unitsIn s.spl.cur.toNat s.spl.stop.toNat else []

/-- The unit of a split in the NAL registers (10_state.md R54 to R56). -/
def nalOfUnit (m : Memory) (u : Nat × Nat) : Nal :=
  { addr := BitVec.ofNat 32 u.1
    len := BitVec.ofNat 32 u.2
    unitType := (m.read u.1).extractLsb' 0 5 }

/-- R215's sequential scan: copy bytes; on reading 00 00 03 copy the two zeros, drop the 03 and go on after
it. -/
def stripScan : List Byte → List Byte
  | 0x00#8 :: 0x00#8 :: 0x03#8 :: rest => 0x00#8 :: 0x00#8 :: stripScan rest
  | b :: rest => b :: stripScan rest
  | [] => []

/-- R211's condition on position j of the payload: a 03 after two 00. -/
def stripped (payload : List Byte) (j : Nat) : Bool :=
  decide (2 ≤ j) && (payload.getD j 0 == 3) && (payload.getD (j - 1) 1 == 0)
    && (payload.getD (j - 2) 1 == 0)

end Sys2Proof.Safety
end

