-- ==== Sys2Proof/Certificates/Slice0/Obligations.lean ====
section
/-! DEFINITION. The statements about the block, drawn from the numbered rules of the spec. Where a statement
rests on a choice of the model, its docstring names the log entry. -/

open Sys2Proof Sys2Proof.Machine Sys2Proof.Safety

/-! ## Encoding -/

/-- Decode and encode agree on every command with every value of its fields (R110, R115, R122). -/
def Obligations.EncodedCommandDecodesToItself : Prop :=
  ∀ i : Instr, decode (encode i) = .instr i

/-- A word that stands for a command is that command's encoding: no bit is dropped and no two words stand
for one command (R115, R124). -/
def Obligations.DecodedWordIsItsEncoding : Prop :=
  ∀ (w : Word) (i : Instr), decode w = .instr i → encode i = w

/-- Words written out from the formats of R115 and the opcode map of R122. -/
def Obligations.SampleWordsDecode : Prop :=
  decode 0b00000001_00000000_00000000_00000000#32 = .instr .rdInit ∧
  decode 0b00000010_00000000_00000000_00000111#32 = .instr (.rdBits 7) ∧
  decode 0b00000100_00000001_00000000_00000011#32 = .instr (.rdSkip 65539) ∧
  decode 0b00000101_00000000_00000000_00000000#32 = .instr .rdUe ∧
  decode 0b00010001_00000000_00000000_00100000#32 = .instr (.wrBits 32) ∧
  decode 0b00100010_00000000_00000000_00000000#32 = .instr .splNext ∧
  decode 0b00101000_00000000_00000000_00000000#32 = .instr .rbspExtract ∧
  decode 0b00110000_00000000_00000000_00000100#32 = .instr (.flvFhdr true false) ∧
  decode 0b00110001_00000000_00000000_00010010#32 = .instr (.flvThdr 18) ∧
  decode 0b00110010_00000000_00000000_00000001#32 = .instr (.flvAhdr 1) ∧
  decode 0b00110011_00000000_00000010_00000001#32 = .instr (.flvVhdr 2 1) ∧
  decode 0b00000000_00000000_00000000_00000000#32 = .reservedOpcode ∧
  decode 0b00000001_00000000_00000000_00000001#32 = .reservedBits

/-! ## The step and the end of a command -/

/-- R114, R111: the block's step performs the pending command. After a race (R302) the bytes it wrote take
free values, which is the model's reading (entry 9). -/
def Obligations.StepRunsTheDecodedCommand : Prop :=
  ∀ (s : State) (i : Instr), BlockMoves s → decode s.cmd = .instr i →
    (s.env.raced = false → step s = exec i s) ∧
    (s.env.raced = true → step s = settleRace (writeSet i s) (exec i s))

/-- A command word stored where the step takes its next command from is the one it performs, whatever the
state was. The host's write of CMD is what this stands for (entry 4). -/
def Obligations.FetchedWordIsPerformed : Prop :=
  ∀ (s : State) (i : Instr),
    step (s.withFetchWord 32 (encode i).toNat) = exec i (s.withFetchWord 32 (encode i).toNat)

/-- R123: a reserved opcode ends with ILLEGAL_COMMAND, which is fatal, and changes nothing else. -/
def Obligations.ReservedOpcodeIsIllegalCommand : Prop :=
  ∀ s : State, BlockMoves s → OpcodeReserved (opField s.cmd).toNat →
    step s = .next { s with status :=
      { busy := false, halted := true, derr := s.status.derr, ovr := s.status.ovr
        code := .illegalCommand } }

/-- R124: a defined opcode with a non-zero bit in a position its format marks 0 ends with ILLEGAL_OPERAND,
which is fatal, and no reserved bit is ignored. -/
def Obligations.ReservedBitIsIllegalOperand : Prop :=
  ∀ s : State, BlockMoves s → ¬ OpcodeReserved (opField s.cmd).toNat →
    immField s.cmd &&& reservedMask (opField s.cmd).toNat ≠ 0 →
    step s = .next { s with status :=
      { busy := false, halted := true, derr := s.status.derr, ovr := s.status.ovr
        code := .illegalOperand } }

/-- R264: a command that raises changes STATUS as listed and nothing else, memory included, also after a host
write that raced with it. The model's own record of that race is all that env may lose (entry 9). -/
def Obligations.RaiseChangesOnlyStatus : Prop :=
  ∀ s t : State, perform s = .next t →
    t.status.code ≠ .ok → t.status.code ≠ .notFound →
    (s.env.raced = false → t.env = s.env) ∧
    t = { s with
      status := {
        busy := false
        halted := s.status.halted || t.status.code.fatal
        derr := s.status.derr || decide (t.status.code = .decodeError)
        ovr := s.status.ovr
        code := t.status.code }
      env := t.env }

/-- R59, R262, R263: what every performance does to STATUS, whatever it ends with: BUSY is cleared, OVR kept,
HALTED set by a fatal code and never cleared, DERR set by DECODE_ERROR and never cleared. -/
def Obligations.StatusAfterEveryPerformance : Prop :=
  ∀ s : State, ∃ t, perform s = .next t ∧
    t.status.busy = false ∧ t.status.ovr = s.status.ovr ∧
    t.status.halted = (s.status.halted || t.status.code.fatal) ∧
    t.status.derr = (s.status.derr || decide (t.status.code = .decodeError))

/-- R260, R261: every command ends, with a code of its row in the table of R261. -/
def Obligations.EveryCommandEndsWithACodeOfItsRow : Prop :=
  ∀ (i : Instr) (s : State), ∃ t, exec i s = .next t ∧ t.status.busy = false ∧
    mayEnd i t.status.code = true

/-! ## Frames over all commands -/

/-- R34: RESULT changes only when one of the commands that write it completes with OK. -/
def Obligations.ResultIsWrittenOnlyOnOk : Prop :=
  ∀ (i : Instr) (s t : State), exec i s = .next t →
    writesResult i = false ∨ t.status.code ≠ .ok → t.result = s.result

/-- R33, R42, R57: no command changes OPA, OPB, CMD or the latched operands; nor the platform, nor what the
host has still to do. -/
def Obligations.CommandsKeepHostRegisters : Prop :=
  ∀ (i : Instr) (s t : State), exec i s = .next t →
    t.opa = s.opa ∧ t.opb = s.opb ∧ t.cmd = s.cmd ∧ t.latA = s.latA ∧ t.latB = s.latB ∧
      t.plat = s.plat ∧ t.env = s.env

/-- R43, R44, R45: only RD.INIT writes RD_BASE and RD_CAP; RD_POS is moved by the reader's commands only,
forward only, and only with OK. -/
def Obligations.ReaderRegistersMoveForward : Prop :=
  ∀ (i : Instr) (s t : State), exec i s = .next t → i ≠ .rdInit →
    t.rd.base = s.rd.base ∧ t.rd.cap = s.rd.cap ∧ s.rd.pos.toNat ≤ t.rd.pos.toNat ∧
      (readsCursor i = false ∨ t.status.code ≠ .ok → t.rd = s.rd)

/-- R47, R48, R49: only WR.INIT writes WR_BASE and WR_CAP; WR_POS is moved by the emitting commands only,
forward only, and only with OK. -/
def Obligations.WriterRegistersMoveForward : Prop :=
  ∀ (i : Instr) (s t : State), exec i s = .next t → i ≠ .wrInit →
    t.wr.base = s.wr.base ∧ t.wr.cap = s.wr.cap ∧ s.wr.pos.toNat ≤ t.wr.pos.toNat ∧
      (emitsBits i = false ∨ t.status.code ≠ .ok → t.wr = s.wr)

/-- R51 to R56: only SPL.INIT and SPL.NEXT write the splitter's registers, only SPL.INIT writes SPL_END, and
only SPL.NEXT with OK writes the NAL registers. -/
def Obligations.SplitterRegistersHaveTheirWriters : Prop :=
  ∀ (i : Instr) (s t : State), exec i s = .next t →
    (i ≠ .splInit → i ≠ .splNext → t.spl = s.spl) ∧
    (i ≠ .splInit → t.spl.stop = s.spl.stop) ∧
    (i ≠ .splNext ∨ t.status.code ≠ .ok → t.nal = s.nal)

/-- R82, R102: a command that emits nothing leaves all of memory alone, and every other command leaves alone
each byte that holds none of the bits it emits. -/
def Obligations.MemoryOutsideTheWriteSetIsKept : Prop :=
  ∀ (i : Instr) (s t : State), exec i s = .next t →
    (emitsBits i = false → ∀ a, t.mem.read a = s.mem.read a) ∧
    (∀ a, (writeSet i s).holds a = false → t.mem.read a = s.mem.read a)

/-! ## The invariant -/

/-- The state after reset meets the invariant (R290). That memory lists nothing there is the model's choice
(entry 1). -/
def Obligations.ResetMeetsTheInvariant : Prop := Inv State.reset

/-- R44, R46, R48, R50, R55, R262: every step keeps the invariant: cursors inside their buffers, the splitter
inside its input, HALTED exactly after a fatal code, memory canonical. -/
def Obligations.EveryStepKeepsTheInvariant : Prop :=
  ∀ s t : State, Inv s → step s = .next t → Inv t

/-- R310: while the host waits, a pending command is performed within its finite latency, as perform would
perform it at once. The form of the latency is the model's (entry 5). -/
def Obligations.WaitingHostSeesCompletion : Prop :=
  ∀ (s : State) (rest : List HostAction), s.status.busy = true →
    s.env.queue = .wait :: rest →
    ∃ t : State, Host.Core.run Sys2Proof.core (s.env.delay + 1) s = .next t ∧
      perform { s with env := { s.env with delay := 0 } } = .next t ∧
      t.status.busy = false ∧ t.env.queue = .wait :: rest

/-! ## Bit reader -/

/-- RD.INIT (R140): the operand checks, and the cursor it makes. -/
def Obligations.RdInitSetsTheReader : Prop :=
  ∀ s : State,
    if 2 ^ 29 - 1 < s.latB.toNat ∨ 2 ^ 32 ≤ s.latA.toNat + s.latB.toNat then
      Raises .rdInit s .illegalOperand
    else exec .rdInit s = .next { s with
      status := s.status.completed .ok
      rd := { base := s.latA, cap := BitVec.ofNat 32 (8 * s.latB.toNat), pos := 0 } }

/-- RD.BITS n (R142): the legal counts, and the field it reads. -/
def Obligations.RdBitsReadsTheField : Prop :=
  ∀ (n : BitVec 6) (s : State),
    if n.toNat < 1 ∨ 32 < n.toNat then Raises (.rdBits n) s .illegalOperand
    else EndsInField (.rdBits n) s n.toNat

/-- RD.BIT (R145): the 1-bit special case. -/
def Obligations.RdBitReadsOneBit : Prop :=
  ∀ s : State, EndsInField .rdBit s 1

/-- RD.SKIP n (R146, R147): within the capacity RD_POS moves by n; past it nothing changes; either way the
command completes with OK. -/
def Obligations.RdSkipAdvancesOrStays : Prop :=
  ∀ (n : BitVec 24) (s : State), exec (.rdSkip n) s = .next { s with
    status := s.status.completed .ok
    rd := if s.rd.cap.toNat < s.rd.pos.toNat + n.toNat then s.rd
      else { s.rd with pos := BitVec.ofNat 32 (s.rd.pos.toNat + n.toNat) } }

/-! ## Exp-Golomb decoder -/

/-- RD.UE (R170, R172): a code of v inside the capacity, in admitted bytes, gives v and moves RD_POS past its
2k + 1 bits. -/
def Obligations.RdUeDecodesEveryCode : Prop :=
  ∀ (s : State) (v : Nat), v ≤ 2 ^ 32 - 2 →
    CodeAt s.mem s.rd.base.toNat s.rd.pos.toNat v →
    s.rd.pos.toNat + codeBits v ≤ s.rd.cap.toNat →
    s.plat.admitsAll (s.inSpan (codeBits v)) = true →
    exec .rdUe s = .next { s with
      status := s.status.completed .ok
      result := BitVec.ofNat 32 v
      rd := { s.rd with pos := BitVec.ofNat 32 (s.rd.pos.toNat + codeBits v) } }

/-- R172: what RD.UE returns is always the value, at most 2^32 - 2, of the code that stands there. -/
def Obligations.RdUeReturnsOnlyCodeValues : Prop :=
  ∀ s t : State, exec .rdUe s = .next t → t.status.code = .ok →
    ∃ v, v ≤ 2 ^ 32 - 2 ∧ CodeAt s.mem s.rd.base.toNat s.rd.pos.toNat v ∧
      s.rd.pos.toNat + codeBits v ≤ s.rd.cap.toNat ∧
      t = { s with
        status := s.status.completed .ok
        result := BitVec.ofNat 32 v
        rd := { s.rd with pos := BitVec.ofNat 32 (s.rd.pos.toNat + codeBits v) } }

/-- R171: reading a 32nd consecutive zero bit ends RD.UE and RD.SE with DECODE_ERROR. -/
def Obligations.ThirtyTwoZerosRaiseDecodeError : Prop :=
  ∀ s : State, s.rd.pos.toNat + 32 ≤ s.rd.cap.toNat →
    s.plat.admitsAll (s.inSpan 32) = true →
    (∀ j, j < 32 → s.mem.bit s.rd.base.toNat (s.rd.pos.toNat + j) = false) →
    Raises .rdUe s .decodeError ∧ Raises .rdSe s .decodeError

/-- R143, R170, R266: a code cut off by the capacity, in its zeros or in its suffix, raises DECODE_ERROR; a byte
of its zeros, its 1 bit or its suffix that is not admitted raises BUS_ERROR, whichever comes first in the stream.
That the suffix too is checked bit by bit is R266, which the model follows where the single Take(k) of R170 would
check its capacity first (entry 11). RD.SE raises as RD.UE does (R175). -/
def Obligations.CutOffCodesRaise : Prop :=
  ∀ s : State,
    (s.rd.cap.toNat - s.rd.pos.toNat < 32 →
      s.plat.admitsAll (s.inSpan (s.rd.cap.toNat - s.rd.pos.toNat)) = true →
      (∀ j, j < s.rd.cap.toNat - s.rd.pos.toNat →
        s.mem.bit s.rd.base.toNat (s.rd.pos.toNat + j) = false) →
      Raises .rdUe s .decodeError ∧ Raises .rdSe s .decodeError) ∧
    (∀ k, k < 32 → s.rd.pos.toNat + k + 1 ≤ s.rd.cap.toNat →
      (∀ j, j < k → s.mem.bit s.rd.base.toNat (s.rd.pos.toNat + j) = false) →
      (s.mem.bit s.rd.base.toNat (s.rd.pos.toNat + k) = true →
        s.rd.cap.toNat < s.rd.pos.toNat + 2 * k + 1 →
        s.plat.admitsAll (s.inSpan (s.rd.cap.toNat - s.rd.pos.toNat)) = true →
        Raises .rdUe s .decodeError ∧ Raises .rdSe s .decodeError) ∧
      (s.mem.bit s.rd.base.toNat (s.rd.pos.toNat + k) = true →
        ∀ j, j < k → s.rd.pos.toNat + k + 1 + j + 1 ≤ s.rd.cap.toNat →
          s.plat.admitsAll (s.inSpan (k + 1 + j)) = true →
          s.plat.admits (s.rd.base.toNat + (s.rd.pos.toNat + k + 1 + j) / 8) = false →
          Raises .rdUe s .busError ∧ Raises .rdSe s .busError) ∧
      (s.plat.admitsAll (s.inSpan k) = true →
        s.plat.admits (s.rd.base.toNat + (s.rd.pos.toNat + k) / 8) = false →
        Raises .rdUe s .busError ∧ Raises .rdSe s .busError))

/-- R175: RD.SE reads what RD.UE reads and ends as it ends; only RESULT is mapped, odd r to (r + 1)/2 and even r
to -(r/2), in two's complement. -/
def Obligations.RdSeMapsTheUnsignedValue : Prop :=
  ∀ s t : State, exec .rdUe s = .next t →
    (t.status.code ≠ .ok → exec .rdSe s = .next t) ∧
    (t.status.code = .ok →
      exec .rdSe s = .next { t with
        result := BitVec.ofInt 32
          (if t.result.toNat % 2 = 1 then ((t.result.toNat : Int) + 1) / 2
            else -((t.result.toNat : Int) / 2)) })

/-- R175, R176, R133: the code of a signed value gives that value in two's complement. -/
def Obligations.RdSeDecodesEveryCode : Prop :=
  ∀ (s : State) (v : Int), -(2 ^ 31 - 1) ≤ v → v ≤ 2 ^ 31 - 1 →
    CodeAt s.mem s.rd.base.toNat s.rd.pos.toNat (seCodeNum v) →
    s.rd.pos.toNat + codeBits (seCodeNum v) ≤ s.rd.cap.toNat →
    s.plat.admitsAll (s.inSpan (codeBits (seCodeNum v))) = true →
    exec .rdSe s = .next { s with
      status := s.status.completed .ok
      result := BitVec.ofInt 32 v
      rd := { s.rd with
        pos := BitVec.ofNat 32 (s.rd.pos.toNat + codeBits (seCodeNum v)) } }

/-! ## Bit writer -/

/-- WR.INIT (R150): the operand checks, and the cursor it makes. It writes no memory. -/
def Obligations.WrInitSetsTheWriter : Prop :=
  ∀ s : State,
    if 2 ^ 29 - 1 < s.latB.toNat ∨ 2 ^ 32 ≤ s.latA.toNat + s.latB.toNat then
      Raises .wrInit s .illegalOperand
    else exec .wrInit s = .next { s with
      status := s.status.completed .ok
      wr := { base := s.latA, cap := BitVec.ofNat 32 (8 * s.latB.toNat), pos := 0 } }

/-- WR.BITS n (R152, R158): the legal counts, and the low n bits of A emitted most significant first. -/
def Obligations.WrBitsEmitsTheLowBits : Prop :=
  ∀ (n : BitVec 6) (s : State), s.mem.wf = true →
    if n.toNat < 1 ∨ 32 < n.toNat then Raises (.wrBits n) s .illegalOperand
    else EndsInEmission (.wrBits n) s n.toNat
      (fun j => s.latA.getLsbD (n.toNat - 1 - j)) s.result

/-- R153: a field that WR.BITS wrote is read back by RD.BITS as A mod 2^n, as long as its bits are not written
in between. -/
def Obligations.WrittenFieldIsReadBack : Prop :=
  ∀ (n : BitVec 6) (s t u : State), s.mem.wf = true →
    exec (.wrBits n) s = .next t → t.status.code = .ok →
    (∀ j, j < n.toNat → u.mem.bit s.wr.base.toNat (s.wr.pos.toNat + j) =
      t.mem.bit s.wr.base.toNat (s.wr.pos.toNat + j)) →
    u.plat = s.plat → u.rd.base = s.wr.base → u.rd.pos = s.wr.pos →
    u.rd.pos.toNat + n.toNat ≤ u.rd.cap.toNat →
    exec (.rdBits n) u = .next { u with
      status := u.status.completed .ok
      result := BitVec.ofNat 32 (s.latA.toNat % 2 ^ n.toNat)
      rd := { u.rd with pos := BitVec.ofNat 32 (u.rd.pos.toNat + n.toNat) } }

/-- R177: what wr.ue and wr.se write (R132, R133), k zero bits and then the k + 1 bits of v + 1, is read back
by RD.UE as v, and by RD.SE as the signed value whose code value v is. Between the two WR.BITS anything may change
but memory and the writer. -/
def Obligations.WrittenCodeIsReadBack : Prop :=
  ∀ (s s1 s2 u : State) (v : Nat), s.mem.wf = true → v ≤ 2 ^ 32 - 2 →
    (if codeZeros v = 0 then s1.mem = s.mem ∧ s1.wr = s.wr ∧ s1.plat = s.plat
      else s.latA = 0 ∧
        ∃ t, exec (.wrBits (BitVec.ofNat 6 (codeZeros v))) s = .next t ∧ t.status.code = .ok ∧
          s1.mem = t.mem ∧ s1.wr = t.wr ∧ s1.plat = t.plat) →
    s1.latA = BitVec.ofNat 32 (v + 1) →
    exec (.wrBits (BitVec.ofNat 6 (codeZeros v + 1))) s1 = .next s2 →
    s2.status.code = .ok →
    (∀ j, j < codeBits v → u.mem.bit s.wr.base.toNat (s.wr.pos.toNat + j) =
      s2.mem.bit s.wr.base.toNat (s.wr.pos.toNat + j)) →
    u.plat = s.plat → u.rd.base = s.wr.base → u.rd.pos = s.wr.pos →
    u.rd.pos.toNat + codeBits v ≤ u.rd.cap.toNat →
    s2.wr.pos.toNat = s.wr.pos.toNat + codeBits v ∧
    exec .rdUe u = .next { u with
      status := u.status.completed .ok
      result := BitVec.ofNat 32 v
      rd := { u.rd with pos := s2.wr.pos } } ∧
    ∀ x : Int, -(2 ^ 31 - 1) ≤ x → x ≤ 2 ^ 31 - 1 → v = seCodeNum x →
      exec .rdSe u = .next { u with
        status := u.status.completed .ok
        result := BitVec.ofInt 32 x
        rd := { u.rd with pos := s2.wr.pos } }

/-! ## Splitter -/

/-- SC.FIND (R190): the range and admission checks, the first start code, or NOT_FOUND. -/
def Obligations.ScFindFindsTheFirst : Prop :=
  ∀ s : State,
    if 2 ^ 32 ≤ s.latA.toNat + s.latB.toNat then Raises .scFind s .illegalOperand
    else if s.plat.admitsAll s.source = false then Raises .scFind s .busError
    else
      (∀ q, FirstStartCode s.mem s.latA.toNat (s.latA.toNat + s.latB.toNat) q →
        exec .scFind s = .next { s with
          status := s.status.completed .ok, result := BitVec.ofNat 32 q }) ∧
      (NoStartCode s.mem s.latA.toNat (s.latA.toNat + s.latB.toNat) →
        exec .scFind s = .next { s with status := s.status.completed .notFound })

/-- SPL.INIT (R195): the checks of SC.FIND, and the splitter set just after the first start code, or inactive
at the end. -/
def Obligations.SplInitStartsTheSplit : Prop :=
  ∀ s : State,
    if 2 ^ 32 ≤ s.latA.toNat + s.latB.toNat then Raises .splInit s .illegalOperand
    else if s.plat.admitsAll s.source = false then Raises .splInit s .busError
    else
      (∀ q, FirstStartCode s.mem s.latA.toNat (s.latA.toNat + s.latB.toNat) q →
        exec .splInit s = .next { s with
          status := s.status.completed .ok
          spl := { cur := BitVec.ofNat 32 (q + 3), stop := s.latA + s.latB, active := true } }) ∧
      (NoStartCode s.mem s.latA.toNat (s.latA.toNat + s.latB.toNat) →
        exec .splInit s = .next { s with
          status := s.status.completed .notFound
          spl := { cur := s.latA + s.latB, stop := s.latA + s.latB, active := false } })

/-- SPL.NEXT (R193, R194, R198): inactive it changes nothing; else it checks admission and returns the first of
the units left, trimmed of its trailing zeros, or NOT_FOUND with the splitter inactive at the end. -/
def Obligations.SplNextReturnsTheNextUnit : Prop :=
  ∀ s : State,
    if s.spl.active = false then
      exec .splNext s = .next { s with status := s.status.completed .notFound }
    else if s.plat.admitsAll s.scanRegion = false then Raises .splNext s .busError
    else match unitsLeft s with
      | [] =>
          exec .splNext s = .next { s with
            status := s.status.completed .notFound
            spl := { s.spl with cur := s.spl.stop, active := false } } ∧
          ∀ a n, ¬ UnitAhead s.mem s.spl.cur.toNat s.spl.stop.toNat a n
      | (a, n) :: rest => ∃ t, exec .splNext s = .next t ∧
          UnitAhead s.mem s.spl.cur.toNat s.spl.stop.toNat a n ∧
          (∀ b l, UnitAhead s.mem s.spl.cur.toNat s.spl.stop.toNat b l → a ≤ b) ∧
          1 ≤ n ∧ s.spl.cur.toNat ≤ a ∧ a + n ≤ s.spl.stop.toNat ∧ unitsLeft t = rest ∧
          (∀ q, FirstStartCode s.mem a s.spl.stop.toNat q →
            t.spl.cur = BitVec.ofNat 32 (q + 3) ∧ t.spl.active = true) ∧
          (NoStartCode s.mem a s.spl.stop.toNat →
            t.spl.cur = s.spl.stop ∧ t.spl.active = false) ∧
          t = { s with
            status := s.status.completed .ok
            spl := { t.spl with stop := s.spl.stop }
            nal := { addr := BitVec.ofNat 32 a, len := BitVec.ofNat 32 n
                     unitType := (s.mem.read a).extractLsb' 0 5 } }

/-- R199, R193: after SPL.INIT over [A, A+B), with those bytes and the splitter left alone and anything else
changed, the j-th SPL.NEXT returns the j-th element of Split(A, A+B) with the type of its first byte, and each
after the last ends with NOT_FOUND. The elements are, in order, exactly the trimmed units that follow a start
code, each at least one byte long. -/
def Obligations.IteratorReturnsTheSplit : Prop :=
  ∀ (s t : State) (k : Nat) (before after : Nat → State), exec .splInit s = .next t →
    t.status.code = .ok ∨ t.status.code = .notFound →
    (before 0).spl = t.spl →
    (∀ j, j < k → exec .splNext (before j) = .next (after j)) →
    (∀ j, j + 1 < k → (before (j + 1)).spl = (after j).spl) →
    (∀ j, j < k → (before j).plat = s.plat ∧
      ∀ a, s.latA.toNat ≤ a → a < s.latA.toNat + s.latB.toNat →
        (before j).mem.read a = s.mem.read a) →
    (∀ j u, j < k →
      (s.mem.split s.latA.toNat (s.latA.toNat + s.latB.toNat))[j]? = some u →
      (after j).status.code = .ok ∧ (after j).nal = nalOfUnit s.mem u) ∧
    (∀ j, j < k →
      (s.mem.split s.latA.toNat (s.latA.toNat + s.latB.toNat)).length ≤ j →
      (after j).status.code = .notFound) ∧
    (s.mem.split s.latA.toNat (s.latA.toNat + s.latB.toNat)).Pairwise (fun u v => u.1 < v.1) ∧
    ∀ a n, (a, n) ∈ s.mem.split s.latA.toNat (s.latA.toNat + s.latB.toNat) ↔
      AfterStartCode s.mem s.latA.toNat a ∧
        TrimmedUnit s.mem (s.latA.toNat + s.latB.toNat) a n

/-! ## RBSP stripper -/

/-- RBSP.EXTRACT (R210): the checks in their order, and the stripped payload emitted. -/
def Obligations.RbspExtractEmitsTheStrippedPayload : Prop :=
  ∀ s : State, s.mem.wf = true →
    if 2 ^ 32 ≤ s.latA.toNat + s.latB.toNat then Raises .rbspExtract s .illegalOperand
    else if s.latB.toNat = 0 then Raises .rbspExtract s .decodeError
    else if s.plat.admitsAll s.source = false then Raises .rbspExtract s .busError
    else EndsInBytes .rbspExtract s
      (strip (s.mem.bytes (s.latA.toNat + 1) (s.latB.toNat - 1)))
      (BitVec.ofNat 32 (strip (s.mem.bytes (s.latA.toNat + 1) (s.latB.toNat - 1))).length)

/-- R211: Strip keeps the bytes of the payload in order, but those at a position with a 03 after two 00. -/
def Obligations.StripDropsByPosition : Prop :=
  ∀ payload : List Byte, strip payload =
    ((List.range payload.length).filter fun j => !stripped payload j).map fun j =>
      payload.getD j 0

/-- R214: the output is no longer than the payload and loses at most a third of it. -/
def Obligations.StripLosesAtMostAThird : Prop :=
  ∀ payload : List Byte, (strip payload).length ≤ payload.length ∧
    payload.length - payload.length / 3 ≤ (strip payload).length

/-- R215: the sequential scan gives the same output. -/
def Obligations.StripAgreesWithTheScan : Prop :=
  ∀ payload : List Byte, stripScan payload = strip payload

/-! ## FLV framer -/

/-- FLV.FHDR (R221, R116): the 13 bytes. -/
def Obligations.FlvFhdrEmitsTheFileHeader : Prop :=
  ∀ (au vi : Bool) (s : State), s.mem.wf = true →
    EndsInBytes (.flvFhdr au vi) s
      [0x46, 0x4C, 0x56, 0x01, (if au then 4 else 0) + (if vi then 1 else 0),
        0x00, 0x00, 0x00, 0x09, 0x00, 0x00, 0x00, 0x00] s.result

/-- FLV.THDR (R225, R226, R227): the legal types and sizes, and the 11 bytes. -/
def Obligations.FlvThdrEmitsTheTagHeader : Prop :=
  ∀ (ty : BitVec 5) (s : State), s.mem.wf = true →
    if ty ≠ 8 ∧ ty ≠ 9 ∧ ty ≠ 18 then Raises (.flvThdr ty) s .illegalOperand
    else if 2 ^ 24 ≤ s.latA.toNat then Raises (.flvThdr ty) s .illegalOperand
    else EndsInBytes (.flvThdr ty) s
      [ty.setWidth 8,
        s.latA.extractLsb' 16 8, s.latA.extractLsb' 8 8, s.latA.extractLsb' 0 8,
        s.latB.extractLsb' 16 8, s.latB.extractLsb' 8 8, s.latB.extractLsb' 0 8,
        s.latB.extractLsb' 24 8, 0x00, 0x00, 0x00] s.result

/-- FLV.AHDR (R228, R229): AF and the packet type. -/
def Obligations.FlvAhdrEmitsTheAudioHeader : Prop :=
  ∀ (pkt : BitVec 8) (s : State), s.mem.wf = true →
    if 1 < pkt.toNat then Raises (.flvAhdr pkt) s .illegalOperand
    else EndsInBytes (.flvAhdr pkt) s [0xAF, pkt] s.result

/-- FLV.VHDR (R231, R233, R234): frame type and codec id 7, packet type, and the 24-bit composition time, which
is zero unless the packet is a NALU. -/
def Obligations.FlvVhdrEmitsTheVideoHeader : Prop :=
  ∀ (ft : BitVec 4) (pkt : BitVec 8) (s : State), s.mem.wf = true →
    if 2 < pkt.toNat then Raises (.flvVhdr ft pkt) s .illegalOperand
    else if pkt = 1 then
      if s.latA.toInt < -(2 ^ 23) ∨ 2 ^ 23 - 1 < s.latA.toInt then
        Raises (.flvVhdr ft pkt) s .illegalOperand
      else EndsInBytes (.flvVhdr ft pkt) s
        [BitVec.ofNat 8 (16 * ft.toNat + 7), pkt,
          s.latA.extractLsb' 16 8, s.latA.extractLsb' 8 8, s.latA.extractLsb' 0 8] s.result
    else EndsInBytes (.flvVhdr ft pkt) s
      [BitVec.ofNat 8 (16 * ft.toNat + 7), pkt, 0x00, 0x00, 0x00] s.result

/-- FLV.PAYLOAD (R236, R100): the source bytes unchanged, as they are before any is written. -/
def Obligations.FlvPayloadCopiesTheBytes : Prop :=
  ∀ s : State, s.mem.wf = true →
    if 2 ^ 32 ≤ s.latA.toNat + s.latB.toNat then Raises .flvPayload s .illegalOperand
    else if s.plat.admitsAll s.source = false then Raises .flvPayload s .busError
    else EndsInBytes .flvPayload s (s.mem.bytes s.latA.toNat s.latB.toNat) s.latB

/-- FLV.PNAL (R238): a 4-byte big-endian length, then the unit. -/
def Obligations.FlvPnalPrefixesTheLength : Prop :=
  ∀ s : State, s.mem.wf = true →
    if 2 ^ 32 ≤ s.latA.toNat + s.latB.toNat then Raises .flvPnal s .illegalOperand
    else if s.plat.admitsAll s.source = false then Raises .flvPnal s .busError
    else EndsInBytes .flvPnal s
      ([s.latB.extractLsb' 24 8, s.latB.extractLsb' 16 8, s.latB.extractLsb' 8 8,
        s.latB.extractLsb' 0 8] ++ s.mem.bytes s.latA.toNat s.latB.toNat) (s.latB + 4)

/-- FLV.PADTS (R241, R242): the frame without its first 7 bytes; a shorter frame is DECODE_ERROR. -/
def Obligations.FlvPadtsStripsSevenBytes : Prop :=
  ∀ s : State, s.mem.wf = true →
    if 2 ^ 32 ≤ s.latA.toNat + s.latB.toNat then Raises .flvPadts s .illegalOperand
    else if s.latB.toNat < 7 then Raises .flvPadts s .decodeError
    else if s.plat.admitsAll s.source = false then Raises .flvPadts s .busError
    else EndsInBytes .flvPadts s
      (s.mem.bytes (s.latA.toNat + 7) (s.latB.toNat - 7)) (s.latB - 7)

/-- FLV.TRAILER (R245): PreviousTagSize, 11 + dataSize in four big-endian bytes. -/
def Obligations.FlvTrailerEmitsTheTagSize : Prop :=
  ∀ s : State, s.mem.wf = true →
    if 2 ^ 24 ≤ s.latA.toNat then Raises .flvTrailer s .illegalOperand
    else EndsInBytes .flvTrailer s
      [(s.latA + 11).extractLsb' 24 8, (s.latA + 11).extractLsb' 16 8,
        (s.latA + 11).extractLsb' 8 8, (s.latA + 11).extractLsb' 0 8] s.result

/-- R248: a tag header carrying dataSize d, d bytes of body, and a trailer carrying d occupy 11 + d + 4 bytes,
and the last 32 bits are 11 + d; where the tag starts on a byte they are the four bytes BE_4(11 + d). -/
def Obligations.TagOccupiesItsSize : Prop :=
  ∀ (ty : BitVec 5) (s t u v : State), exec (.flvThdr ty) s = .next t → t.status.code = .ok →
    u.mem.wf = true → u.wr.base = t.wr.base →
    u.wr.pos.toNat = t.wr.pos.toNat + 8 * s.latA.toNat → u.latA = s.latA →
    exec .flvTrailer u = .next v → v.status.code = .ok →
    v.wr.pos.toNat = s.wr.pos.toNat + 8 * (11 + s.latA.toNat + 4) ∧
    v.mem.readBits s.wr.base.toNat (s.wr.pos.toNat + 8 * (11 + s.latA.toNat)) 32 =
      11 + s.latA.toNat ∧
    (s.wr.pos.toNat % 8 = 0 →
      v.mem.bytes (s.wr.base.toNat + s.wr.pos.toNat / 8 + 11 + s.latA.toNat) 4 =
        beBytes 4 (11 + s.latA.toNat))

/-! ## The host's registers and the resets -/

/-- R112, R113: a write to CMD is ignored while halted, dropped with OVR set while busy, and else accepted:
CMD, A and B are latched and BUSY is set. -/
def Obligations.CmdWriteIsAcceptedDroppedOrIgnored : Prop :=
  ∀ (s : State) (w : Word), ∃ t,
    hostAct (.regWrite (s.plat.regBase + 0x08) 4 w) s = .next t ∧
    if s.status.halted = true then t = s
    else if s.status.busy = true then t = { s with status := { s.status with ovr := true } }
    else t = { s with
        cmd := w, latA := s.opa, latB := s.opb
        status := { s.status with busy := true }
        env := t.env } ∧
      t.env.queue = s.env.queue ∧ t.env.seen = s.env.seen

/-- R40: a write to STATUS clears DERR and OVR where bits 2 and 3 are 1 and does nothing else. -/
def Obligations.StatusWriteClearsStickyBits : Prop :=
  ∀ (s : State) (w : Word),
    hostAct (.regWrite (s.plat.regBase + 0x04) 4 w) s = .next { s with status := { s.status with
      derr := if w.getLsbD 2 = true then false else s.status.derr
      ovr := if w.getLsbD 3 = true then false else s.status.ovr } }

/-- R33, R62, R37: a write to OPA or OPB stores the value, at any time; a write to a read-only register or a
reserved offset is ignored. -/
def Obligations.RegisterWritesStoreOrAreIgnored : Prop :=
  ∀ (s : State) (off : Nat) (w : Word), 0x0C ≤ off → off < 256 → off % 4 = 0 →
    hostAct (.regWrite (s.plat.regBase + off) 4 w) s = .next
      (if off = 0x0C then { s with opa := w } else if off = 0x10 then { s with opb := w } else s)

/-- R32, R36 to R39, R53, R56: a register read hands the host the register's value, reserved bits and offsets
0, and changes no state of the block. While BUSY = 1 the value is the one R301 gives a model (entry 7). -/
def Obligations.RegisterReadsReturnTheMap : Prop :=
  ∀ (s : State) (off : Nat) (v : Word),
    (off, v) ∈ [(0x00, 0), (0x04, BitVec.ofNat 32
        (s.status.code.number.toNat * 16 + s.status.ovr.toNat * 8 + s.status.derr.toNat * 4
          + s.status.halted.toNat * 2 + s.status.busy.toNat)),
      (0x08, s.cmd), (0x0C, s.opa), (0x10, s.opb), (0x14, s.result),
      (0x18, s.rd.base), (0x1C, s.rd.cap), (0x20, s.rd.pos),
      (0x24, s.wr.base), (0x28, s.wr.cap), (0x2C, s.wr.pos),
      (0x30, s.spl.cur), (0x34, s.spl.stop), (0x38, if s.spl.active then 1 else 0),
      (0x3C, s.nal.addr), (0x40, s.nal.len), (0x44, BitVec.ofNat 32 s.nal.unitType.toNat)] ∨
      (0x48 ≤ off ∧ off < 256 ∧ off % 4 = 0 ∧ v = 0) →
    hostAct (.regRead (s.plat.regBase + off) 4) s =
      .next { s with env := { s.env with seen := v :: s.env.seen } }

/-- R35: a register access that is not an aligned 32-bit access inside the window is refused. That an access
outside the window is refused is the model's reading (entry 14). -/
def Obligations.OddRegisterAccessIsRefused : Prop :=
  ∀ (s : State) (a n : Nat) (w : Word),
    n ≠ 4 ∨ a < s.plat.regBase ∨ s.plat.regBase + 256 ≤ a ∨ (a - s.plat.regBase) % 4 ≠ 0 →
    ∃ r, hostAct (.regRead a n) s = .refused r ∧ hostAct (.regWrite a n w) s = .refused r

/-- R290: a hardware reset sets every register and latch to 0, with no command pending, and does not change
memory. -/
def Obligations.HardwareResetClearsTheRegisters : Prop :=
  ∀ s : State, ∃ t, hostAct .hardReset s = .next t ∧ t.env.queue = s.env.queue ∧
    t = { status := { busy := false, halted := false, derr := false, ovr := false, code := .ok }
          cmd := 0, opa := 0, opb := 0, result := 0
          rd := { base := 0, cap := 0, pos := 0 }, wr := { base := 0, cap := 0, pos := 0 }
          spl := { cur := 0, stop := 0, active := false }
          nal := { addr := 0, len := 0, unitType := 0 }
          latA := 0, latB := 0, mem := s.mem, plat := s.plat, env := t.env }

/-- R38, R291: a write to CTRL with bit 0 = 1 resets as R290 says and abandons a pending command, after which
only the bytes of its write set may have changed; with bit 0 = 0 it does nothing. -/
def Obligations.SoftResetAbandonsThePendingCommand : Prop :=
  ∀ (s : State) (w : Word), ∃ t,
    hostAct (.regWrite s.plat.regBase 4 w) s = .next t ∧
    if w.getLsbD 0 = false then t = s
    else (s.status.busy = false → t.mem = s.mem) ∧
      (∀ a, s.pendingWrites.holds a = false → t.mem.read a = s.mem.read a) ∧
      t.env.queue = s.env.queue ∧
      t = { status := { busy := false, halted := false, derr := false, ovr := false, code := .ok }
            cmd := 0, opa := 0, opb := 0, result := 0
            rd := { base := 0, cap := 0, pos := 0 }, wr := { base := 0, cap := 0, pos := 0 }
            spl := { cur := 0, stop := 0, active := false }
            nal := { addr := 0, len := 0, unitType := 0 }
            latA := 0, latB := 0, mem := t.mem, plat := s.plat, env := t.env }

/-- R292: with the cursors and the splitter as a reset leaves them, reads raise DECODE_ERROR, every emission of at
least one bit raises CAPACITY_ERROR once its operands pass their checks, SPL.NEXT finds nothing and a skip of 0
completes. That a command which emits no bits completes with OK is R158; that R292's emitting commands are those
which emit a bit is the model's reading (entry 18). -/
def Obligations.AfterResetCursorsAreEmpty : Prop :=
  ∀ (s : State) (n : BitVec 6) (au vi : Bool) (ty : BitVec 5) (ft : BitVec 4) (pkt : BitVec 8),
    s.rd = { base := 0, cap := 0, pos := 0 } → s.wr = { base := 0, cap := 0, pos := 0 } →
    s.spl.active = false → 1 ≤ n.toNat → n.toNat ≤ 32 →
    Raises (.rdBits n) s .decodeError ∧ Raises .rdBit s .decodeError ∧
    Raises .rdUe s .decodeError ∧ Raises .rdSe s .decodeError ∧
    Raises (.wrBits n) s .capacityError ∧ Raises (.flvFhdr au vi) s .capacityError ∧
    (pkt.toNat ≤ 1 → Raises (.flvAhdr pkt) s .capacityError) ∧
    (pkt = 0 ∨ pkt = 2 → Raises (.flvVhdr ft pkt) s .capacityError) ∧
    (-(2 ^ 23) ≤ s.latA.toInt → s.latA.toInt ≤ 2 ^ 23 - 1 →
      Raises (.flvVhdr ft 1) s .capacityError) ∧
    (ty = 8 ∨ ty = 9 ∨ ty = 18 → s.latA.toNat < 2 ^ 24 →
      Raises (.flvThdr ty) s .capacityError) ∧
    (s.latA.toNat < 2 ^ 24 → Raises .flvTrailer s .capacityError) ∧
    (s.latA.toNat + s.latB.toNat < 2 ^ 32 → s.plat.admitsAll s.source = true →
      Raises .flvPnal s .capacityError ∧
      (1 ≤ s.latB.toNat → Raises .flvPayload s .capacityError) ∧
      (8 ≤ s.latB.toNat → Raises .flvPadts s .capacityError) ∧
      (2 ≤ s.latB.toNat → Raises .rbspExtract s .capacityError) ∧
      (s.latB.toNat = 0 →
        exec .flvPayload s = .next { s with status := s.status.completed .ok, result := 0 }) ∧
      (s.latB.toNat = 7 →
        exec .flvPadts s = .next { s with status := s.status.completed .ok, result := 0 }) ∧
      (s.latB.toNat = 1 →
        exec .rbspExtract s = .next { s with status := s.status.completed .ok, result := 0 })) ∧
    exec .splNext s = .next { s with status := s.status.completed .notFound } ∧
    exec (.rdSkip 0) s = .next { s with status := s.status.completed .ok }

/-- R302: while BUSY = 1, a host access to a byte outside the pending command's access set is unaffected; a
read of a byte inside gives an unspecified value, and a write of one leaves every other byte alone. That the
value is a free one is the model's form (entries 6, 8, 9), and so is the access set of a command that would raise
(entry 10). -/
def Obligations.HostBytesOutsideTheAccessSetAreUnaffected : Prop :=
  ∀ (s : State) (a : Nat) (v : Byte), s.plat.admits a = true → s.status.busy = true →
    (s.pendingTouches a = false →
      hostAct (.memRead a) s = .next { s with env := { s.env with
        seen := (s.mem.read a).setWidth 32 :: s.env.seen } } ∧
      hostAct (.memWrite a v) s = .next { s with mem := s.mem.write a v }) ∧
    (s.pendingTouches a = true →
      (∃ t, hostAct (.memRead a) s = .next t ∧ t = { s with env := t.env }) ∧
      (∃ t, hostAct (.memWrite a v) s = .next t ∧
        t = { s with mem := t.mem, env := t.env } ∧ t.env.raced = true ∧
        ∀ x, x ≠ a → t.mem.read x = s.mem.read x))

/-- R30, R61, R281: where the next step is not the block's it is the host's oldest action, taken off what the host
has still to do; with no command pending and nothing left to do a step changes nothing. The host's list of actions
and the count of the latency are the model's (entries 4, 5, 17). -/
def Obligations.StepIsTheHostsNextAction : Prop :=
  ∀ s : State,
    (s.status.busy = false → s.env.queue = [] → step s = .next s) ∧
    ∀ (act : HostAction) (rest : List HostAction), s.env.queue = act :: rest →
      (s.status.busy = false →
        step s = hostAct act { s with env := { s.env with queue := rest } }) ∧
      ∀ d, s.status.busy = true → s.env.delay = d + 1 →
        step s = hostAct act { s with env := { s.env with queue := rest, delay := d } }
end

