-- ==== Sys2Proof/Laws/Encoding.lean ====
section
/-! SUPPORT. A command word is its opcode followed by its immediate (30_encoding.md R110). -/

namespace Sys2Proof

theorem getLsbD_word (o : BitVec 8) (m : BitVec 24) (i : Nat) :
    BitVec.getLsbD (w := 32) (o ++ m) i = if i < 24 then m.getLsbD i else o.getLsbD (i - 24) :=
  BitVec.getLsbD_append.trans (by split <;> simp_all)

@[simp] theorem opField_append (o : BitVec 8) (m : BitVec 24) : opField (o ++ m) = o := by
  refine BitVec.eq_of_getLsbD_eq fun i hi => ?_
  rw [opField, BitVec.getLsbD_extractLsb', getLsbD_word]
  simp [hi]

@[simp] theorem immField_append (o : BitVec 8) (m : BitVec 24) : immField (o ++ m) = m := by
  refine BitVec.eq_of_getLsbD_eq fun i hi => ?_
  rw [immField, BitVec.getLsbD_extractLsb', getLsbD_word]
  simp [hi]

/-- No bit of a command word lies outside its two fields. -/
theorem opField_append_immField (w : Word) : opField w ++ immField w = w := by
  refine BitVec.eq_of_getLsbD_eq fun i hi => ?_
  rw [getLsbD_word, opField, immField, BitVec.getLsbD_extractLsb', BitVec.getLsbD_extractLsb']
  by_cases h : i < 24
  · simp [h]
  · have h8 : i - 24 < 8 := by omega
    have hs : 24 + (i - 24) = i := by omega
    simp [h, h8, hs]

end Sys2Proof
end

