-- ==== Sys2Proof/Laws/Memory.lean ====
section
/-! SUPPORT. Buffer memory: a write is read back, leaves every other byte alone and keeps the canonical form;
equal memories are equal data; and the same for bits. -/

namespace Sys2Proof.Machine

theorem Memory.wfFrom_cons {lo k : Nat} {b : Byte} {rest : Memory} :
    Memory.wfFrom lo ((k, b) :: rest) = true ↔
      lo ≤ k ∧ k < Config.addrLimit ∧ b ≠ Config.unwritten ∧ Memory.wfFrom (k + 1) rest = true := by
  simp [Memory.wfFrom, and_assoc]

theorem Memory.wfFrom_mono {m : Memory} {lo lo' : Nat} (h : lo' ≤ lo)
    (hm : Memory.wfFrom lo m = true) : Memory.wfFrom lo' m = true := by
  cases m with
  | nil => rfl
  | cons c rest =>
    obtain ⟨k, b⟩ := c
    rw [Memory.wfFrom_cons] at hm ⊢
    exact ⟨h.trans hm.1, hm.2⟩

/-- Below the first address a canonical memory lists nothing. -/
theorem Memory.read_below {m : Memory} {lo a : Nat} (hm : Memory.wfFrom lo m = true) (h : a < lo) :
    m.read a = Config.unwritten := by
  induction m generalizing lo with
  | nil => rfl
  | cons c rest ih =>
    obtain ⟨k, b⟩ := c
    rw [Memory.wfFrom_cons] at hm
    have hne : a ≠ k := by omega
    simpa [Memory.read, hne] using ih hm.2.2.2 (by omega)

theorem Memory.wfFrom_write {m : Memory} {lo a : Nat} (v : Byte) (hm : Memory.wfFrom lo m = true)
    (hlo : lo ≤ a) (ha : a < Config.addrLimit) : Memory.wfFrom lo (m.write a v) = true := by
  induction m generalizing lo with
  | nil =>
    by_cases hv : v = Config.unwritten
    · simp [Memory.write, hv, Memory.wfFrom]
    · simp [Memory.write, hv, Memory.wfFrom, hlo, ha]
  | cons c rest ih =>
    obtain ⟨k, b⟩ := c
    have h := Memory.wfFrom_cons.mp hm
    rcases Nat.lt_trichotomy a k with hak | rfl | hka
    · by_cases hv : v = Config.unwritten
      · simpa [Memory.write, hak, hv] using hm
      · have hk : Memory.wfFrom (a + 1) ((k, b) :: rest) = true :=
          Memory.wfFrom_cons.mpr ⟨by omega, h.2⟩
        simpa [Memory.write, hak, hv] using Memory.wfFrom_cons.mpr ⟨hlo, ha, hv, hk⟩
    · by_cases hv : v = Config.unwritten
      · simpa [Memory.write, hv] using Memory.wfFrom_mono (by omega : lo ≤ a + 1) h.2.2.2
      · simpa [Memory.write, hv] using Memory.wfFrom_cons.mpr ⟨hlo, ha, hv, h.2.2.2⟩
    · have h1 : ¬ a < k := by omega
      have h2 : a ≠ k := by omega
      simpa [Memory.write, h1, h2] using
        Memory.wfFrom_cons.mpr ⟨h.1, h.2.1, h.2.2.1, ih h.2.2.2 (by omega)⟩

/-- A write to an address of buffer memory keeps the canonical form. -/
theorem Memory.wf_write {m : Memory} (hm : m.wf = true) {a : Nat} (ha : a < Config.addrLimit)
    (v : Byte) : (m.write a v).wf = true :=
  Memory.wfFrom_write v hm (Nat.zero_le a) ha

/-- A write leaves every other byte alone. -/
theorem Memory.read_write_ne {m : Memory} {a a' : Nat} (v : Byte) (h : a' ≠ a) :
    (m.write a v).read a' = m.read a' := by
  induction m with
  | nil => by_cases hv : v = Config.unwritten <;> simp [Memory.write, Memory.read, hv, h]
  | cons c rest ih =>
    obtain ⟨k, b⟩ := c
    by_cases h1 : a < k
    · by_cases hv : v = Config.unwritten <;> simp [Memory.write, Memory.read, h1, hv, h]
    · by_cases h2 : a = k
      · subst h2
        by_cases hv : v = Config.unwritten <;> simp [Memory.write, Memory.read, hv, h]
      · simp [Memory.write, Memory.read, h1, h2, ih]

theorem Memory.read_write_same_from {m : Memory} {lo a : Nat} (v : Byte)
    (hm : Memory.wfFrom lo m = true) : (m.write a v).read a = v := by
  induction m generalizing lo with
  | nil => by_cases hv : v = Config.unwritten <;> simp [Memory.write, Memory.read, hv]
  | cons c rest ih =>
    obtain ⟨k, b⟩ := c
    have h := Memory.wfFrom_cons.mp hm
    by_cases h1 : a < k
    · by_cases hv : v = Config.unwritten
      · have h2 : a ≠ k := by omega
        simpa [Memory.write, Memory.read, h1, hv, h2] using Memory.read_below h.2.2.2 (by omega)
      · simp [Memory.write, Memory.read, h1, hv]
    · by_cases h2 : a = k
      · subst h2
        by_cases hv : v = Config.unwritten
        · simpa [Memory.write, hv] using Memory.read_below h.2.2.2 (by omega)
        · simp [Memory.write, Memory.read, hv]
      · simpa [Memory.write, Memory.read, h1, h2] using ih h.2.2.2

/-- A write is read back. -/
theorem Memory.read_write_same {m : Memory} (hm : m.wf = true) (a : Nat) (v : Byte) :
    (m.write a v).read a = v :=
  Memory.read_write_same_from v hm

theorem Memory.ext_from {m m' : Memory} {lo : Nat} (hm : Memory.wfFrom lo m = true)
    (hm' : Memory.wfFrom lo m' = true) (h : ∀ a, m.read a = m'.read a) : m = m' := by
  induction m generalizing m' lo with
  | nil =>
    cases m' with
    | nil => rfl
    | cons c rest =>
      obtain ⟨k, b⟩ := c
      have hk := h k
      simp only [Memory.read, if_true] at hk
      exact absurd hk.symm (Memory.wfFrom_cons.mp hm').2.2.1
  | cons c rest ih =>
    obtain ⟨k, b⟩ := c
    have w := Memory.wfFrom_cons.mp hm
    cases m' with
    | nil =>
      have hk := h k
      simp only [Memory.read, if_true] at hk
      exact absurd hk w.2.2.1
    | cons c' rest' =>
      obtain ⟨k', b'⟩ := c'
      have w' := Memory.wfFrom_cons.mp hm'
      have hkk : k = k' := by
        rcases Nat.lt_trichotomy k k' with hlt | heq | hgt
        · have hk := h k
          have : k ≠ k' := by omega
          simp only [Memory.read, if_true, this, if_false] at hk
          exact absurd (hk.trans (Memory.read_below w'.2.2.2 (by omega))) w.2.2.1
        · exact heq
        · have hk := h k'
          have : k' ≠ k := by omega
          simp only [Memory.read, if_true, this, if_false] at hk
          exact absurd (hk.symm.trans (Memory.read_below w.2.2.2 (by omega))) w'.2.2.1
      subst hkk
      have hb : b = b' := by simpa [Memory.read] using h k
      subst hb
      have hrest : rest = rest' := by
        refine ih w.2.2.2 w'.2.2.2 fun a => ?_
        by_cases ha : a = k
        · subst ha
          rw [Memory.read_below w.2.2.2 (by omega), Memory.read_below w'.2.2.2 (by omega)]
        · simpa [Memory.read, ha] using h a
      rw [hrest]

/-- Canonical memories that read the same are the same data. -/
theorem Memory.ext_of_read {m m' : Memory} (hm : m.wf = true) (hm' : m'.wf = true)
    (h : ∀ a, m.read a = m'.read a) : m = m' :=
  Memory.ext_from hm hm' h

/-! ## Bits -/

theorem replaceBit_getLsbD (old : Byte) (b : Bool) {s i : Nat} (hs : s < 8) (hi : i < 8) :
    (replaceBit old s b).getLsbD i = if i = s then b else old.getLsbD i := by
  have hc : ∀ (o : BitVec 8) (c : Bool) (s i : Fin 8),
      (replaceBit o s.val c).getLsbD i.val = if i.val = s.val then c else o.getLsbD i.val := by
    intro o c s i
    fin_cases s <;> fin_cases i <;> cases c <;> simp [replaceBit]
  exact hc old b ⟨s, hs⟩ ⟨i, hi⟩

/-- Setting a bit keeps the canonical form. -/
theorem Memory.wf_setBit {m : Memory} (hm : m.wf = true) {base p : Nat}
    (ha : base + p / 8 < Config.addrLimit) (b : Bool) : (m.setBit base p b).wf = true :=
  Memory.wf_write hm ha _

/-- A set bit is read back, and every other bit is as before. -/
theorem Memory.bit_setBit {m : Memory} (hm : m.wf = true) (base p q : Nat) (b : Bool) :
    (m.setBit base p b).bit base q = if q = p then b else m.bit base q := by
  unfold Memory.setBit Memory.bit
  by_cases hb : q / 8 = p / 8
  · rw [hb, Memory.read_write_same hm, replaceBit_getLsbD _ _ (by omega) (by omega)]
    by_cases hq : q = p
    · simp [hq]
    · have : ¬ 7 - q % 8 = 7 - p % 8 := by omega
      simp [hq, this]
  · rw [Memory.read_write_ne _ (by omega)]
    have : q ≠ p := by rintro rfl; exact hb rfl
    simp [this]

/-- Setting a bit leaves every other byte alone. -/
theorem Memory.read_setBit_ne {m : Memory} {base p a : Nat} (b : Bool) (h : a ≠ base + p / 8) :
    (m.setBit base p b).read a = m.read a :=
  Memory.read_write_ne _ h

/-- Setting a bit string keeps the canonical form. -/
theorem Memory.wf_putBits {bits : List Bool} {m : Memory} {base p : Nat} (hm : m.wf = true)
    (ha : ∀ j, j < bits.length → base + (p + j) / 8 < Config.addrLimit) :
    (m.putBits base p bits).wf = true := by
  induction bits generalizing m p with
  | nil => exact hm
  | cons b bs ih =>
    refine ih (Memory.wf_setBit hm (by simpa using ha 0 (by simp)) b) fun j hj => ?_
    have := ha (j + 1) (by simpa using hj)
    rwa [show p + 1 + j = p + (j + 1) by omega]

/-- What a bit string leaves at each bit position: its own bits where it lies, and the old bit elsewhere. -/
theorem Memory.bit_putBits {bits : List Bool} {m : Memory} {base p : Nat} (hm : m.wf = true)
    (ha : ∀ j, j < bits.length → base + (p + j) / 8 < Config.addrLimit) (q : Nat) :
    (m.putBits base p bits).bit base q =
      if p ≤ q ∧ q < p + bits.length then bits.getD (q - p) false else m.bit base q := by
  induction bits generalizing m p with
  | nil =>
    have : ¬ (p ≤ q ∧ q < p + ([] : List Bool).length) := by simp
    rw [if_neg this]; rfl
  | cons b bs ih =>
    have hwf := Memory.wf_setBit (p := p) hm (by simpa using ha 0 (by simp)) b
    have ha' : ∀ j, j < bs.length → base + (p + 1 + j) / 8 < Config.addrLimit := fun j hj => by
      have := ha (j + 1) (by simpa using hj)
      rwa [show p + 1 + j = p + (j + 1) by omega]
    show ((m.setBit base p b).putBits base (p + 1) bs).bit base q = _
    rw [ih hwf ha', Memory.bit_setBit hm]
    simp only [List.length_cons]
    by_cases h1 : p + 1 ≤ q ∧ q < p + 1 + bs.length
    · rw [if_pos h1, if_pos (by omega), show q - p = (q - (p + 1)) + 1 by omega]
      rfl
    · rw [if_neg h1]
      by_cases h2 : q = p
      · subst h2
        rw [if_pos rfl, if_pos (by omega), Nat.sub_self]
        rfl
      · rw [if_neg h2, if_neg (by omega)]

/-- A bit string leaves every byte alone that holds none of its bits. -/
theorem Memory.read_putBits {bits : List Bool} {m : Memory} {base p a : Nat}
    (h : ∀ j, j < bits.length → a ≠ base + (p + j) / 8) :
    (m.putBits base p bits).read a = m.read a := by
  induction bits generalizing m p with
  | nil => rfl
  | cons b bs ih =>
    refine (ih fun j hj => ?_).trans (Memory.read_setBit_ne b (by simpa using h 0 (by simp)))
    have := h (j + 1) (by simpa using hj)
    rwa [show p + 1 + j = p + (j + 1) by omega]

/-- n bits of a memory spell a number below 2^n. -/
theorem Memory.readBits_lt (m : Memory) (base p n : Nat) : m.readBits base p n < 2 ^ n := by
  induction n generalizing p with
  | zero => simp [Memory.readBits]
  | succ n ih =>
    have h := ih (p + 1)
    rw [Memory.readBits, Nat.pow_succ]
    cases m.bit base p <;> simp <;> omega

/-- The number that n bits of a memory spell, bit by bit, the first the most significant. -/
theorem Memory.testBit_readBits (m : Memory) (base p n i : Nat) :
    (m.readBits base p n).testBit i = (decide (i < n) && m.bit base (p + (n - 1 - i))) := by
  induction n generalizing p with
  | zero => simp [Memory.readBits]
  | succ n ih =>
    rw [Memory.readBits, Nat.mul_comm, Nat.testBit_two_pow_mul_add _ (m.readBits_lt base (p + 1) n)]
    by_cases h1 : i < n
    · rw [if_pos h1, ih, show p + 1 + (n - 1 - i) = p + (n + 1 - 1 - i) by omega]
      simp [h1, show i < n + 1 by omega]
    · rw [if_neg h1]
      by_cases h2 : i = n
      · subst h2
        cases h : m.bit base p <;> simp [h]
      · obtain ⟨d, hd⟩ : ∃ d, i - n = d + 1 := ⟨i - n - 1, by omega⟩
        have h3 : ¬ i < n + 1 := by omega
        cases m.bit base p <;> simp [h3, hd, Nat.testBit_succ]

/-- The bits of a value, first the most significant (R158). -/
theorem valueBits_getD (n v j : Nat) (h : j < n) :
    (valueBits n v).getD j false = v.testBit (n - 1 - j) := by
  simp [valueBits, h]

theorem valueBits_length (n v : Nat) : (valueBits n v).length = n := by simp [valueBits]

theorem bytesBits_length (bytes : List Byte) : (bytesBits bytes).length = 8 * bytes.length := by
  induction bytes with
  | nil => rfl
  | cons b bs ih =>
    have : bytesBits (b :: bs) = valueBits 8 b.toNat ++ bytesBits bs := by simp [bytesBits]
    rw [this, List.length_append, ih, valueBits_length, List.length_cons]
    omega

/-- Bit j of a byte sequence is bit 7 - (j mod 8) of its byte j/8 (R158). -/
theorem bytesBits_getD (bytes : List Byte) (j : Nat) (h : j < 8 * bytes.length) :
    (bytesBits bytes).getD j false = (bytes.getD (j / 8) 0).getLsbD (7 - j % 8) := by
  induction bytes generalizing j with
  | nil => simp at h
  | cons b bs ih =>
    have hsplit : bytesBits (b :: bs) = valueBits 8 b.toNat ++ bytesBits bs := by simp [bytesBits]
    rw [hsplit]
    by_cases h8 : j < 8
    · rw [List.getD_append _ _ _ _ (by rw [valueBits_length]; exact h8), valueBits_getD _ _ _ h8,
        show j / 8 = 0 by omega, show 8 - 1 - j = 7 - j % 8 by omega]
      rfl
    · rw [List.getD_append_right _ _ _ _ (by rw [valueBits_length]; omega), valueBits_length,
        ih (j - 8) (by simp at h; omega), show j / 8 = (j - 8) / 8 + 1 by omega,
        show (j - 8) % 8 = j % 8 by omega]
      rfl

theorem Memory.bytes_length (m : Memory) (a n : Nat) : (m.bytes a n).length = n := by
  induction n generalizing a with
  | zero => rfl
  | succ n ih => simp [Memory.bytes, ih]

/-- Byte i of Mem[a .. a+n) is the byte at a + i. -/
theorem Memory.bytes_getD (m : Memory) (a n i : Nat) (h : i < n) :
    (m.bytes a n).getD i 0 = m.read (a + i) := by
  induction n generalizing a i with
  | zero => omega
  | succ n ih =>
    cases i with
    | zero => rfl
    | succ i =>
      show (m.bytes (a + 1) n).getD i 0 = _
      rw [ih (a + 1) i (by omega), show a + 1 + i = a + (i + 1) by omega]

theorem beBytes_length (n v : Nat) : (beBytes n v).length = n := by
  induction n with
  | zero => rfl
  | succ n ih => simp [beBytes, ih]

end Sys2Proof.Machine
end

