-- ==== Sys2Proof/Laws/State.lean ====
section
/-! SUPPORT. What each update of the state leaves in each field, so that no proof unfolds a record update. -/

namespace Sys2Proof.Machine

/-! ## finish -/

@[simp] theorem finish_status (c : Code) (s : State) :
    (finish c s).status =
      s.status.completed c := rfl
@[simp] theorem finish_cmd (c : Code) (s : State) : (finish c s).cmd = s.cmd := rfl
@[simp] theorem finish_opa (c : Code) (s : State) : (finish c s).opa = s.opa := rfl
@[simp] theorem finish_opb (c : Code) (s : State) : (finish c s).opb = s.opb := rfl
@[simp] theorem finish_result (c : Code) (s : State) : (finish c s).result = s.result := rfl
@[simp] theorem finish_rd (c : Code) (s : State) : (finish c s).rd = s.rd := rfl
@[simp] theorem finish_wr (c : Code) (s : State) : (finish c s).wr = s.wr := rfl
@[simp] theorem finish_spl (c : Code) (s : State) : (finish c s).spl = s.spl := rfl
@[simp] theorem finish_nal (c : Code) (s : State) : (finish c s).nal = s.nal := rfl
@[simp] theorem finish_latA (c : Code) (s : State) : (finish c s).latA = s.latA := rfl
@[simp] theorem finish_latB (c : Code) (s : State) : (finish c s).latB = s.latB := rfl
@[simp] theorem finish_mem (c : Code) (s : State) : (finish c s).mem = s.mem := rfl
@[simp] theorem finish_plat (c : Code) (s : State) : (finish c s).plat = s.plat := rfl
@[simp] theorem finish_env (c : Code) (s : State) : (finish c s).env = s.env := rfl

/-! ## takeError -/

@[simp] theorem takeError_status (c : Code) (s : State) :
    (takeError c s).status =
      s.status.errored c := rfl
@[simp] theorem takeError_cmd (c : Code) (s : State) : (takeError c s).cmd = s.cmd := rfl
@[simp] theorem takeError_opa (c : Code) (s : State) : (takeError c s).opa = s.opa := rfl
@[simp] theorem takeError_opb (c : Code) (s : State) : (takeError c s).opb = s.opb := rfl
@[simp] theorem takeError_result (c : Code) (s : State) : (takeError c s).result = s.result := rfl
@[simp] theorem takeError_rd (c : Code) (s : State) : (takeError c s).rd = s.rd := rfl
@[simp] theorem takeError_wr (c : Code) (s : State) : (takeError c s).wr = s.wr := rfl
@[simp] theorem takeError_spl (c : Code) (s : State) : (takeError c s).spl = s.spl := rfl
@[simp] theorem takeError_nal (c : Code) (s : State) : (takeError c s).nal = s.nal := rfl
@[simp] theorem takeError_latA (c : Code) (s : State) : (takeError c s).latA = s.latA := rfl
@[simp] theorem takeError_latB (c : Code) (s : State) : (takeError c s).latB = s.latB := rfl
@[simp] theorem takeError_mem (c : Code) (s : State) : (takeError c s).mem = s.mem := rfl
@[simp] theorem takeError_plat (c : Code) (s : State) : (takeError c s).plat = s.plat := rfl
@[simp] theorem takeError_env (c : Code) (s : State) : (takeError c s).env = s.env := rfl

/-! ## clearSticky -/

@[simp] theorem clearSticky_status (w : Word) (s : State) :
    (clearSticky w s).status =
      s.status.written w := rfl
@[simp] theorem clearSticky_cmd (w : Word) (s : State) : (clearSticky w s).cmd = s.cmd := rfl
@[simp] theorem clearSticky_opa (w : Word) (s : State) : (clearSticky w s).opa = s.opa := rfl
@[simp] theorem clearSticky_opb (w : Word) (s : State) : (clearSticky w s).opb = s.opb := rfl
@[simp] theorem clearSticky_result (w : Word) (s : State) :
    (clearSticky w s).result =
      s.result := rfl
@[simp] theorem clearSticky_rd (w : Word) (s : State) : (clearSticky w s).rd = s.rd := rfl
@[simp] theorem clearSticky_wr (w : Word) (s : State) : (clearSticky w s).wr = s.wr := rfl
@[simp] theorem clearSticky_spl (w : Word) (s : State) : (clearSticky w s).spl = s.spl := rfl
@[simp] theorem clearSticky_nal (w : Word) (s : State) : (clearSticky w s).nal = s.nal := rfl
@[simp] theorem clearSticky_latA (w : Word) (s : State) : (clearSticky w s).latA = s.latA := rfl
@[simp] theorem clearSticky_latB (w : Word) (s : State) : (clearSticky w s).latB = s.latB := rfl
@[simp] theorem clearSticky_mem (w : Word) (s : State) : (clearSticky w s).mem = s.mem := rfl
@[simp] theorem clearSticky_plat (w : Word) (s : State) : (clearSticky w s).plat = s.plat := rfl
@[simp] theorem clearSticky_env (w : Word) (s : State) : (clearSticky w s).env = s.env := rfl

/-! ## deliver -/

@[simp] theorem deliver_status (v : Word) (p : Nat) (s : State) :
    (s.deliver v p).status =
      s.status := rfl
@[simp] theorem deliver_cmd (v : Word) (p : Nat) (s : State) : (s.deliver v p).cmd = s.cmd := rfl
@[simp] theorem deliver_opa (v : Word) (p : Nat) (s : State) : (s.deliver v p).opa = s.opa := rfl
@[simp] theorem deliver_opb (v : Word) (p : Nat) (s : State) : (s.deliver v p).opb = s.opb := rfl
@[simp] theorem deliver_result (v : Word) (p : Nat) (s : State) : (s.deliver v p).result = v := rfl
@[simp] theorem deliver_rd (v : Word) (p : Nat) (s : State) :
    (s.deliver v p).rd =
      { s.rd with pos := BitVec.ofNat 32 p } := rfl
@[simp] theorem deliver_wr (v : Word) (p : Nat) (s : State) : (s.deliver v p).wr = s.wr := rfl
@[simp] theorem deliver_spl (v : Word) (p : Nat) (s : State) : (s.deliver v p).spl = s.spl := rfl
@[simp] theorem deliver_nal (v : Word) (p : Nat) (s : State) : (s.deliver v p).nal = s.nal := rfl
@[simp] theorem deliver_latA (v : Word) (p : Nat) (s : State) : (s.deliver v p).latA = s.latA := rfl
@[simp] theorem deliver_latB (v : Word) (p : Nat) (s : State) : (s.deliver v p).latB = s.latB := rfl
@[simp] theorem deliver_mem (v : Word) (p : Nat) (s : State) : (s.deliver v p).mem = s.mem := rfl
@[simp] theorem deliver_plat (v : Word) (p : Nat) (s : State) : (s.deliver v p).plat = s.plat := rfl
@[simp] theorem deliver_env (v : Word) (p : Nat) (s : State) : (s.deliver v p).env = s.env := rfl

/-! ## accept -/

@[simp] theorem accept_status (w : Word) (s : State) :
    (accept w s).status =
      { s.status with busy := true } := rfl
@[simp] theorem accept_cmd (w : Word) (s : State) : (accept w s).cmd = w := rfl
@[simp] theorem accept_opa (w : Word) (s : State) : (accept w s).opa = s.opa := rfl
@[simp] theorem accept_opb (w : Word) (s : State) : (accept w s).opb = s.opb := rfl
@[simp] theorem accept_result (w : Word) (s : State) : (accept w s).result = s.result := rfl
@[simp] theorem accept_rd (w : Word) (s : State) : (accept w s).rd = s.rd := rfl
@[simp] theorem accept_wr (w : Word) (s : State) : (accept w s).wr = s.wr := rfl
@[simp] theorem accept_spl (w : Word) (s : State) : (accept w s).spl = s.spl := rfl
@[simp] theorem accept_nal (w : Word) (s : State) : (accept w s).nal = s.nal := rfl
@[simp] theorem accept_latA (w : Word) (s : State) : (accept w s).latA = s.opa := rfl
@[simp] theorem accept_latB (w : Word) (s : State) : (accept w s).latB = s.opb := rfl
@[simp] theorem accept_mem (w : Word) (s : State) : (accept w s).mem = s.mem := rfl
@[simp] theorem accept_plat (w : Word) (s : State) : (accept w s).plat = s.plat := rfl
@[simp] theorem accept_env (w : Word) (s : State) :
    (accept w s).env =
      { s.env with delay := Config.latency s.env.drawn, drawn := s.env.drawn + 1, raced := false } := rfl

/-! ## clearRegisters -/

@[simp] theorem clearRegisters_status (s : State) : (clearRegisters s).status = Status.zero := rfl
@[simp] theorem clearRegisters_cmd (s : State) : (clearRegisters s).cmd = 0 := rfl
@[simp] theorem clearRegisters_opa (s : State) : (clearRegisters s).opa = 0 := rfl
@[simp] theorem clearRegisters_opb (s : State) : (clearRegisters s).opb = 0 := rfl
@[simp] theorem clearRegisters_result (s : State) : (clearRegisters s).result = 0 := rfl
@[simp] theorem clearRegisters_rd (s : State) :
    (clearRegisters s).rd =
      { base := 0, cap := 0, pos := 0 } := rfl
@[simp] theorem clearRegisters_wr (s : State) :
    (clearRegisters s).wr =
      { base := 0, cap := 0, pos := 0 } := rfl
@[simp] theorem clearRegisters_spl (s : State) :
    (clearRegisters s).spl =
      { cur := 0, stop := 0, active := false } := rfl
@[simp] theorem clearRegisters_nal (s : State) :
    (clearRegisters s).nal =
      { addr := 0, len := 0, unitType := 0 } := rfl
@[simp] theorem clearRegisters_latA (s : State) : (clearRegisters s).latA = 0 := rfl
@[simp] theorem clearRegisters_latB (s : State) : (clearRegisters s).latB = 0 := rfl
@[simp] theorem clearRegisters_mem (s : State) : (clearRegisters s).mem = s.mem := rfl
@[simp] theorem clearRegisters_plat (s : State) : (clearRegisters s).plat = s.plat := rfl
@[simp] theorem clearRegisters_env (s : State) :
    (clearRegisters s).env =
      { s.env with delay := 0, raced := false } := rfl

/-! ## answer -/

@[simp] theorem answer_status (v : Word) (s : State) : (answer v s).status = s.status := rfl
@[simp] theorem answer_cmd (v : Word) (s : State) : (answer v s).cmd = s.cmd := rfl
@[simp] theorem answer_opa (v : Word) (s : State) : (answer v s).opa = s.opa := rfl
@[simp] theorem answer_opb (v : Word) (s : State) : (answer v s).opb = s.opb := rfl
@[simp] theorem answer_result (v : Word) (s : State) : (answer v s).result = s.result := rfl
@[simp] theorem answer_rd (v : Word) (s : State) : (answer v s).rd = s.rd := rfl
@[simp] theorem answer_wr (v : Word) (s : State) : (answer v s).wr = s.wr := rfl
@[simp] theorem answer_spl (v : Word) (s : State) : (answer v s).spl = s.spl := rfl
@[simp] theorem answer_nal (v : Word) (s : State) : (answer v s).nal = s.nal := rfl
@[simp] theorem answer_latA (v : Word) (s : State) : (answer v s).latA = s.latA := rfl
@[simp] theorem answer_latB (v : Word) (s : State) : (answer v s).latB = s.latB := rfl
@[simp] theorem answer_mem (v : Word) (s : State) : (answer v s).mem = s.mem := rfl
@[simp] theorem answer_plat (v : Word) (s : State) : (answer v s).plat = s.plat := rfl
@[simp] theorem answer_env (v : Word) (s : State) :
    (answer v s).env =
      { s.env with seen := v :: s.env.seen } := rfl

/-! ## STATUS -/

@[simp] theorem Status.completed_busy (c : Code) (st : Status) :
    (st.completed c).busy = false := rfl
@[simp] theorem Status.completed_halted (c : Code) (st : Status) :
    (st.completed c).halted = st.halted := rfl
@[simp] theorem Status.completed_derr (c : Code) (st : Status) :
    (st.completed c).derr = st.derr := rfl
@[simp] theorem Status.completed_ovr (c : Code) (st : Status) : (st.completed c).ovr = st.ovr := rfl
@[simp] theorem Status.completed_code (c : Code) (st : Status) : (st.completed c).code = c := rfl
@[simp] theorem Status.errored_busy (c : Code) (st : Status) : (st.errored c).busy = false := rfl
@[simp] theorem Status.errored_halted (c : Code) (st : Status) :
    (st.errored c).halted = (st.halted || c.fatal) := rfl
@[simp] theorem Status.errored_derr (c : Code) (st : Status) :
    (st.errored c).derr = (st.derr || (c == .decodeError)) := rfl
@[simp] theorem Status.errored_ovr (c : Code) (st : Status) : (st.errored c).ovr = st.ovr := rfl
@[simp] theorem Status.errored_code (c : Code) (st : Status) : (st.errored c).code = c := rfl
@[simp] theorem Status.written_busy (w : Word) (st : Status) : (st.written w).busy = st.busy := rfl
@[simp] theorem Status.written_halted (w : Word) (st : Status) :
    (st.written w).halted = st.halted := rfl
@[simp] theorem Status.written_derr (w : Word) (st : Status) :
    (st.written w).derr = (st.derr && !w.getLsbD 2) := rfl
@[simp] theorem Status.written_ovr (w : Word) (st : Status) :
    (st.written w).ovr = (st.ovr && !w.getLsbD 3) := rfl
@[simp] theorem Status.written_code (w : Word) (st : Status) : (st.written w).code = st.code := rfl

/-! ## freeBytes -/

@[simp] theorem freeBytes_status (a n : Nat) (s : State) : (freeBytes a n s).status = s.status := by
  induction n generalizing a s with
  | zero => rfl
  | succ n ih => exact ih (a + 1) _

@[simp] theorem freeBytes_cmd (a n : Nat) (s : State) : (freeBytes a n s).cmd = s.cmd := by
  induction n generalizing a s with
  | zero => rfl
  | succ n ih => exact ih (a + 1) _

@[simp] theorem freeBytes_opa (a n : Nat) (s : State) : (freeBytes a n s).opa = s.opa := by
  induction n generalizing a s with
  | zero => rfl
  | succ n ih => exact ih (a + 1) _

@[simp] theorem freeBytes_opb (a n : Nat) (s : State) : (freeBytes a n s).opb = s.opb := by
  induction n generalizing a s with
  | zero => rfl
  | succ n ih => exact ih (a + 1) _

@[simp] theorem freeBytes_result (a n : Nat) (s : State) : (freeBytes a n s).result = s.result := by
  induction n generalizing a s with
  | zero => rfl
  | succ n ih => exact ih (a + 1) _

@[simp] theorem freeBytes_rd (a n : Nat) (s : State) : (freeBytes a n s).rd = s.rd := by
  induction n generalizing a s with
  | zero => rfl
  | succ n ih => exact ih (a + 1) _

@[simp] theorem freeBytes_wr (a n : Nat) (s : State) : (freeBytes a n s).wr = s.wr := by
  induction n generalizing a s with
  | zero => rfl
  | succ n ih => exact ih (a + 1) _

@[simp] theorem freeBytes_spl (a n : Nat) (s : State) : (freeBytes a n s).spl = s.spl := by
  induction n generalizing a s with
  | zero => rfl
  | succ n ih => exact ih (a + 1) _

@[simp] theorem freeBytes_nal (a n : Nat) (s : State) : (freeBytes a n s).nal = s.nal := by
  induction n generalizing a s with
  | zero => rfl
  | succ n ih => exact ih (a + 1) _

@[simp] theorem freeBytes_latA (a n : Nat) (s : State) : (freeBytes a n s).latA = s.latA := by
  induction n generalizing a s with
  | zero => rfl
  | succ n ih => exact ih (a + 1) _

@[simp] theorem freeBytes_latB (a n : Nat) (s : State) : (freeBytes a n s).latB = s.latB := by
  induction n generalizing a s with
  | zero => rfl
  | succ n ih => exact ih (a + 1) _

@[simp] theorem freeBytes_plat (a n : Nat) (s : State) : (freeBytes a n s).plat = s.plat := by
  induction n generalizing a s with
  | zero => rfl
  | succ n ih => exact ih (a + 1) _

/-- Free values go to the n bytes from a on and to no other byte. -/
theorem freeBytes_read {a n x : Nat} (s : State) (h : x < a ∨ a + n ≤ x) :
    (freeBytes a n s).mem.read x = s.mem.read x := by
  induction n generalizing a s with
  | zero => rfl
  | succ n ih =>
    refine (ih _ (by omega)).trans (Memory.read_write_ne _ (by omega))

/-- Free values keep the canonical form. -/
theorem freeBytes_wf {a n : Nat} {s : State} (hm : s.mem.wf = true)
    (h : n = 0 ∨ a + n ≤ Config.addrLimit) : (freeBytes a n s).mem.wf = true := by
  induction n generalizing a s with
  | zero => exact hm
  | succ n ih => exact ih (Memory.wf_write hm (by omega) _) (by omega)

end Sys2Proof.Machine
end

