-- ==== Sys2Proof/Laws/Ops.lean ====
section
/-! SUPPORT. One lemma for each shared operation that says what it can answer: admission and bit spans, the
end of a command, the operand forms, emission, the start-code search and the trim. -/

namespace Sys2Proof.Machine

/-! ## Admission and spans -/

theorem Platform.admits_lt {p : Platform} {a : Nat} (h : p.admits a = true) : a < Config.addrLimit := by
  simp only [Platform.admits, Bool.and_eq_true, decide_eq_true_eq] at h
  exact h.1

/-- A region is admitted when each of its bytes is (R82). -/
theorem Platform.admitsAll_iff {p : Platform} {r : Region} :
    p.admitsAll r = true ↔ ∀ a, r.start ≤ a → a < r.start + r.len → p.admits a = true := by
  simp only [Platform.admitsAll, List.all_eq_true, List.mem_range]
  refine ⟨fun h a h1 h2 => ?_, fun h i hi => h _ (by omega) (by omega)⟩
  have := h (a - r.start) (by omega)
  rwa [show r.start + (a - r.start) = a by omega] at this

theorem Region.holds_iff {r : Region} {a : Nat} :
    r.holds a = true ↔ r.start ≤ a ∧ a < r.start + r.len := by
  simp [Region.holds]

/-- The bytes of a span are those that hold one of its bits (R82). -/
theorem bitSpan_holds_iff {base p m a : Nat} :
    (bitSpan base p m).holds a = true ↔ ∃ j, j < m ∧ a = base + (p + j) / 8 := by
  rw [Region.holds_iff]
  simp only [bitSpan]
  constructor
  · rintro ⟨h1, h2⟩
    by_cases hm : m = 0
    · simp [hm] at h2; omega
    · rw [if_neg hm] at h2
      by_cases hfirst : a - base = p / 8
      · exact ⟨0, by omega, by omega⟩
      · exact ⟨(a - base) * 8 - p, by omega, by omega⟩
  · rintro ⟨j, hj, rfl⟩
    rw [if_neg (by omega)]
    omega

/-- The bytes of an admitted span are addresses of buffer memory. -/
theorem admitted_span_lt {p : Platform} {base q m : Nat} (h : p.admitsAll (bitSpan base q m) = true)
    {j : Nat} (hj : j < m) : base + (q + j) / 8 < Config.addrLimit := by
  have hh := Region.holds_iff.mp (bitSpan_holds_iff.mpr ⟨j, hj, rfl⟩ : (bitSpan base q m).holds _ = true)
  exact Platform.admits_lt (Platform.admitsAll_iff.mp h _ hh.1 hh.2)

/-! ## The end of a command -/

@[simp] theorem settle_complete (s : State) (c : Code) (t : State) :
    Ending.settle s (.complete c t) = .next (finish c t) := rfl

@[simp] theorem settle_raise (s : State) (c : Code) :
    Ending.settle s (.raise c) = .next (takeError c s) := rfl

/-- A command always ends with a next state: its updates kept, or everything but STATUS as before. -/
theorem settle_next {s t : State} {e : Ending} (h : Ending.settle s e = .next t) :
    (∃ c u, e = .complete c u ∧ t = finish c u) ∨ (∃ c, e = .raise c ∧ t = takeError c s) := by
  cases e with
  | complete c u => exact .inl ⟨c, u, rfl, by simpa using h.symm⟩
  | raise c => exact .inr ⟨c, rfl, by simpa using h.symm⟩

/-! ## The source range -/

/-- The range check of R88. -/
theorem sourceFits_iff {s : State} : s.sourceFits = true ↔ s.opndA + s.opndB < 2 ^ 32 := by
  unfold State.sourceFits Config.addrLimit
  exact decide_eq_true_iff

/-! ## The reader -/

/-- What Take can answer (R143). -/
theorem take_cases (s : State) (p n : Nat) :
    (s.rd.cap.toNat < p + n ∧ s.take p n = .error .decodeError) ∨
    (p + n ≤ s.rd.cap.toNat ∧ s.plat.admitsAll (bitSpan s.rd.base.toNat p n) = false ∧
      s.take p n = .error .busError) ∨
    (p + n ≤ s.rd.cap.toNat ∧ s.plat.admitsAll (bitSpan s.rd.base.toNat p n) = true ∧
      s.take p n = .ok (s.mem.readBits s.rd.base.toNat p n)) := by
  unfold State.take
  by_cases h1 : s.rd.cap.toNat < p + n
  · exact .inl ⟨h1, if_pos h1⟩
  · by_cases h2 : s.plat.admitsAll (bitSpan s.rd.base.toNat p n) = true
    · exact .inr (.inr ⟨by omega, h2, by rw [if_neg h1, if_pos h2]⟩)
    · exact .inr (.inl ⟨by omega, by simpa using h2, by rw [if_neg h1, if_neg h2]⟩)

/-- A Take that answers has read the bits inside the capacity. -/
theorem take_ok {s : State} {p n v : Nat} (h : s.take p n = .ok v) :
    p + n ≤ s.rd.cap.toNat ∧ s.plat.admitsAll (bitSpan s.rd.base.toNat p n) = true ∧
      v = s.mem.readBits s.rd.base.toNat p n := by
  rcases take_cases s p n with ⟨_, e⟩ | ⟨_, _, e⟩ | ⟨h1, h2, e⟩
  · simp [e] at h
  · simp [e] at h
  · exact ⟨h1, h2, by simpa [e] using h.symm⟩

/-- What Take raises (R143). -/
theorem take_error {s : State} {p n : Nat} {c : Code} (h : s.take p n = .error c) :
    c = .decodeError ∨ c = .busError := by
  rcases take_cases s p n with ⟨_, e⟩ | ⟨_, _, e⟩ | ⟨_, _, e⟩ <;> rw [e] at h <;>
    simp at h <;> simp [← h]

/-- Take(1): the capacity check, the admission of the bit's byte, the bit (R143). -/
theorem take_one_eq (s : State) (p : Nat) :
    s.take p 1 =
      if s.rd.cap.toNat < p + 1 then .error .decodeError
      else if s.plat.admits (s.rd.base.toNat + p / 8) = true then
        .ok (s.mem.bit s.rd.base.toNat p).toNat
      else .error .busError := by
  simp [State.take, Platform.admitsAll, bitSpan, Memory.readBits]

/-- What the INIT commands can answer for a cursor (R140, R150). -/
theorem newCursor_cases (s : State) :
    ((Config.bufMaxBytes < s.opndB ∨ Config.addrLimit ≤ s.opndA + s.opndB) ∧
      s.newCursor = .error .illegalOperand) ∨
    (s.opndB ≤ Config.bufMaxBytes ∧ s.opndA + s.opndB < Config.addrLimit ∧
      s.newCursor = .ok { base := s.latA, cap := BitVec.ofNat 32 (8 * s.opndB), pos := 0 }) := by
  unfold State.newCursor State.sourceFits
  by_cases h1 : Config.bufMaxBytes < s.opndB
  · exact .inl ⟨.inl h1, if_pos h1⟩
  · by_cases h2 : s.opndA + s.opndB < Config.addrLimit
    · exact .inr ⟨by omega, h2, by simp [h1, h2]⟩
    · exact .inl ⟨.inr (by omega), by simp [h1, h2]⟩

/-! ## The writer -/

/-- What EmitBits can answer (R158). -/
theorem emitBits_cases (s : State) (bits : List Bool) :
    (s.wr.cap.toNat < s.wr.pos.toNat + bits.length ∧ s.emitBits bits = .error .capacityError) ∨
    (s.wr.pos.toNat + bits.length ≤ s.wr.cap.toNat ∧
      s.plat.admitsAll (s.outSpan bits.length) = false ∧ s.emitBits bits = .error .busError) ∨
    (s.wr.pos.toNat + bits.length ≤ s.wr.cap.toNat ∧
      s.plat.admitsAll (s.outSpan bits.length) = true ∧
      s.emitBits bits = .ok { s with
        mem := s.mem.putBits s.wr.base.toNat s.wr.pos.toNat bits
        wr := { s.wr with pos := BitVec.ofNat 32 (s.wr.pos.toNat + bits.length) } }) := by
  unfold State.emitBits
  by_cases h1 : s.wr.cap.toNat < s.wr.pos.toNat + bits.length
  · exact .inl ⟨h1, if_pos h1⟩
  · by_cases h2 : s.plat.admitsAll (s.outSpan bits.length) = true
    · exact .inr (.inr ⟨by omega, h2, by rw [if_neg h1, if_pos h2]⟩)
    · exact .inr (.inl ⟨by omega, by simpa using h2, by rw [if_neg h1, if_neg h2]⟩)

/-- What a command that emits can end with (R158). -/
theorem emitting_cases (s : State) (bits : List Bool) (after : State → State) :
    (s.wr.cap.toNat < s.wr.pos.toNat + bits.length ∧
      s.emitting bits after = .raise .capacityError) ∨
    (s.wr.pos.toNat + bits.length ≤ s.wr.cap.toNat ∧
      s.plat.admitsAll (s.outSpan bits.length) = false ∧
      s.emitting bits after = .raise .busError) ∨
    (s.wr.pos.toNat + bits.length ≤ s.wr.cap.toNat ∧
      s.plat.admitsAll (s.outSpan bits.length) = true ∧
      s.emitting bits after = .complete .ok (after { s with
        mem := s.mem.putBits s.wr.base.toNat s.wr.pos.toNat bits
        wr := { s.wr with pos := BitVec.ofNat 32 (s.wr.pos.toNat + bits.length) } })) := by
  unfold State.emitting
  rcases emitBits_cases s bits with ⟨h, e⟩ | ⟨h, h2, e⟩ | ⟨h, h2, e⟩
  · exact .inl ⟨h, by rw [e]⟩
  · exact .inr (.inl ⟨h, h2, by rw [e]⟩)
  · exact .inr (.inr ⟨h, h2, by rw [e]⟩)

/-! ## The start-code search and the trim -/

/-- FindSC finds a start code inside the range (R191). -/
theorem findSC_some {m : Memory} {a n q : Nat} (h : m.findSC a n = some q) :
    a ≤ q ∧ q + 3 ≤ a + n ∧ m.startCodeAt q = true ∧
      ∀ q', a ≤ q' → q' < q → m.startCodeAt q' = false := by
  induction n generalizing a with
  | zero => simp [Memory.findSC] at h
  | succ n ih =>
    rw [Memory.findSC] at h
    by_cases hc : 3 ≤ n + 1 ∧ m.startCodeAt a = true
    · rw [if_pos hc] at h
      obtain rfl : a = q := by simpa using h
      exact ⟨le_rfl, by omega, hc.2, fun q' h1 h2 => by omega⟩
    · rw [if_neg hc] at h
      obtain ⟨h1, h2, h3, h4⟩ := ih h
      refine ⟨by omega, by omega, h3, fun q' ha hq => ?_⟩
      by_cases he : q' = a
      · subst he
        have : 3 ≤ n + 1 := by omega
        simpa [this] using hc
      · exact h4 q' (by omega) hq

/-- FindSC finds none where there is none inside the range (R191). -/
theorem findSC_none {m : Memory} {a n : Nat} (h : m.findSC a n = none) :
    ∀ q, a ≤ q → q + 3 ≤ a + n → m.startCodeAt q = false := by
  induction n generalizing a with
  | zero => intro q h1 h2; omega
  | succ n ih =>
    rw [Memory.findSC] at h
    by_cases hc : 3 ≤ n + 1 ∧ m.startCodeAt a = true
    · rw [if_pos hc] at h; simp at h
    · rw [if_neg hc] at h
      intro q h1 h2
      by_cases he : q = a
      · subst he
        have : 3 ≤ n + 1 := by omega
        simpa [this] using hc
      · exact ih h q (by omega) (by omega)

/-- The trim leaves the bytes up to the last that is not zero (R193). -/
theorem trimmed_spec (m : Memory) (s n : Nat) :
    m.trimmed s n ≤ n ∧
    (0 < m.trimmed s n → m.read (s + m.trimmed s n - 1) ≠ 0) ∧
    ∀ i, m.trimmed s n ≤ i → i < n → m.read (s + i) = 0 := by
  induction n with
  | zero => exact ⟨le_rfl, fun h => absurd h (by simp [Memory.trimmed]), fun i _ h => by omega⟩
  | succ n ih =>
    obtain ⟨h1, h2, h3⟩ := ih
    by_cases hz : m.read (s + n) = 0
    · rw [Memory.trimmed, if_pos hz]
      refine ⟨by omega, h2, fun i hi hn => ?_⟩
      by_cases he : i = n
      · rw [he, hz]
      · exact h3 i hi (by omega)
    · rw [Memory.trimmed, if_neg hz]
      exact ⟨le_rfl, fun _ => by simpa using hz, fun i hi hn => by omega⟩

/-- The units found do not depend on the fuel, once it is above the bytes left (R193). -/
theorem unitsFrom_fuel {m : Memory} {e f g s : Nat} (hf : e - s < f) (hg : e - s < g) :
    m.unitsFrom e f s = m.unitsFrom e g s := by
  induction f generalizing g s with
  | zero => omega
  | succ f ih =>
    cases g with
    | zero => omega
    | succ g =>
      rw [Memory.unitsFrom, Memory.unitsFrom]
      cases h : m.findSC s (e - s) with
      | none => rfl
      | some q =>
        have hq := findSC_some h
        have : m.unitsFrom e f (q + 3) = m.unitsFrom e g (q + 3) := ih (by omega) (by omega)
        simp only [this]

/-- What one scan finds is the first of the units left, and what it leaves is the rest: the splitter stands
just after the first start code that follows the unit's start, or at the end (R193, R198). -/
theorem nextUnit_spec {m : Memory} {e f s : Nat} (hf : e - s < f) :
    (m.unitsIn s e = [] ∧ m.nextUnit e f s = { cur := e, active := false, unit := none }) ∨
    (∃ a n, 0 < n ∧ s ≤ a ∧ a + n ≤ e ∧
      ((m.findSC a (e - a) = none ∧ m.unitsIn s e = [(a, n)] ∧
          m.nextUnit e f s = { cur := e, active := false, unit := some (a, n) }) ∨
        (∃ q, m.findSC a (e - a) = some q ∧ m.unitsIn s e = (a, n) :: m.unitsIn (q + 3) e ∧
          m.nextUnit e f s = { cur := q + 3, active := true, unit := some (a, n) }))) := by
  induction f generalizing s with
  | zero => omega
  | succ f ih =>
    have ht := (trimmed_spec m s (e - s)).1
    rw [Memory.nextUnit, Memory.unitsIn, Memory.unitsFrom]
    cases h : m.findSC s (e - s) with
    | none =>
      by_cases h0 : m.trimmed s (e - s) = 0
      · exact .inl (by simp [h0])
      · exact .inr ⟨s, m.trimmed s (e - s), by omega, le_rfl, by omega,
          .inl ⟨h, by simp [h0], by simp [h0]⟩⟩
    | some q =>
      obtain ⟨hq1, hq2, _, _⟩ := findSC_some h
      have hrest : m.unitsFrom e (e - s) (q + 3) = m.unitsIn (q + 3) e :=
        unitsFrom_fuel (by omega) (by omega)
      have htq := (trimmed_spec m s (q - s)).1
      by_cases h0 : m.trimmed s (q - s) = 0
      · simp only [h0, if_true, hrest]
        rcases ih (s := q + 3) (by omega) with h1 | ⟨a, n, h1, h2, h3, h4⟩
        · exact .inl h1
        · exact .inr ⟨a, n, h1, by omega, h3, h4⟩
      · simp only [h0, if_false, hrest]
        exact .inr ⟨s, m.trimmed s (q - s), by omega, le_rfl, by omega, .inr ⟨q, h, rfl, rfl⟩⟩

end Sys2Proof.Machine
end

