-- ==== Sys2Proof/Laws/Exec.lean ====
section
/-! SUPPORT. What the performance of a command can do, said once over all twenty commands: exec_ending. Each
claim about every command is a case analysis of CommandEnding. -/

namespace Sys2Proof.Machine

open Sys2Proof.Safety

/-- How the pseudocode of command i, performed in s, can end: with an error, or completed with one of the
updates the command families make. -/
inductive CommandEnding (i : Instr) (s : State) : Ending → Prop
  /-- An error of the command's row in R261. -/
  | raise (c : Code) (hok : c ≠ .ok) (hnf : c ≠ .notFound) (hc : mayEnd i c = true) :
      CommandEnding i s (.raise c)
  /-- Nothing is updated (R147, R190, R198). -/
  | same (c : Code) (h : c = .ok ∨ c = .notFound) (hc : mayEnd i c = true) :
      CommandEnding i s (.complete c s)
  /-- RD.INIT makes a cursor (R140). -/
  | rdInit (h : i = .rdInit) (hB : s.opndB ≤ Config.bufMaxBytes)
      (hA : s.opndA + s.opndB < Config.addrLimit) :
      CommandEnding i s (.complete .ok { s with
        rd := { base := s.latA, cap := BitVec.ofNat 32 (8 * s.opndB), pos := 0 } })
  /-- WR.INIT makes a cursor (R150). -/
  | wrInit (h : i = .wrInit) (hB : s.opndB ≤ Config.bufMaxBytes)
      (hA : s.opndA + s.opndB < Config.addrLimit) :
      CommandEnding i s (.complete .ok { s with
        wr := { base := s.latA, cap := BitVec.ofNat 32 (8 * s.opndB), pos := 0 } })
  /-- A reader command delivers a value and moves RD_POS forward (R142, R170, R175). -/
  | deliver (v : Word) (p : Nat) (h : readsCursor i = true) (hr : writesResult i = true)
      (hc : mayEnd i .ok = true) (hp : s.rd.pos.toNat ≤ p) (hcap : p ≤ s.rd.cap.toNat) :
      CommandEnding i s (.complete .ok (s.deliver v p))
  /-- RD.SKIP moves RD_POS forward (R146). -/
  | skip (p : Nat) (h : readsCursor i = true) (hc : mayEnd i .ok = true)
      (hp : s.rd.pos.toNat ≤ p) (hcap : p ≤ s.rd.cap.toNat) :
      CommandEnding i s (.complete .ok { s with
        rd := { s.rd with pos := BitVec.ofNat 32 p } })
  /-- An emission, and RESULT where the command writes it (R158). -/
  | emit (bits : List Bool) (r : Word) (h : emitsBits i = true)
      (hr : writesResult i = true ∨ r = s.result) (hc : mayEnd i .ok = true)
      (hcap : s.wr.pos.toNat + bits.length ≤ s.wr.cap.toNat)
      (ha : s.plat.admitsAll (s.outSpan bits.length) = true) :
      CommandEnding i s (.complete .ok { s with
        mem := s.mem.putBits s.wr.base.toNat s.wr.pos.toNat bits
        wr := { s.wr with pos := BitVec.ofNat 32 (s.wr.pos.toNat + bits.length) }
        result := r })
  /-- SC.FIND writes RESULT (R190). -/
  | find (q : Word) (h : i = .scFind) :
      CommandEnding i s (.complete .ok { s with result := q })
  /-- SPL.INIT sets the splitter (R195). -/
  | splInit (c : Code) (sp : Splitter) (h : i = .splInit) (hc : c = .ok ∨ c = .notFound)
      (hin : sp.cur.toNat ≤ sp.stop.toNat) (hdone : sp.active = false → sp.cur = sp.stop) :
      CommandEnding i s (.complete c { s with spl := sp })
  /-- SPL.NEXT finds no further unit (R198). -/
  | splNone (sp : Splitter) (h : i = .splNext) (hstop : sp.stop = s.spl.stop)
      (hin : s.spl.cur.toNat ≤ s.spl.stop.toNat → sp.cur.toNat ≤ sp.stop.toNat)
      (hdone : sp.active = false → sp.cur = sp.stop) :
      CommandEnding i s (.complete .notFound { s with spl := sp })
  /-- SPL.NEXT returns a unit, which is not empty (R194, R198). -/
  | splSome (sp : Splitter) (n : Nal) (h : i = .splNext) (hstop : sp.stop = s.spl.stop)
      (hin : s.spl.cur.toNat ≤ s.spl.stop.toNat → sp.cur.toNat ≤ sp.stop.toNat)
      (hdone : sp.active = false → sp.cur = sp.stop) (hlen : n.len ≠ 0) :
      CommandEnding i s (.complete .ok { s with spl := sp, nal := n })

/-! ## The shared operations -/

/-- An emission with an update of RESULT ends in an emission or in one of its two errors. -/
theorem emitting_ending {i : Instr} {s : State} {bits : List Bool} {after : State → State}
    {r : State → Word} (he : emitsBits i = true) (hok : mayEnd i .ok = true)
    (hcap : mayEnd i .capacityError = true) (hbus : mayEnd i .busError = true)
    (ha : ∀ t, after t = { t with result := r t })
    (hr : writesResult i = true ∨ ∀ t, r t = t.result) :
    CommandEnding i s (s.emitting bits after) := by
  rcases emitting_cases s bits after with ⟨h, e⟩ | ⟨h, h2, e⟩ | ⟨h, h2, e⟩ <;> rw [e]
  · exact .raise _ (by simp) (by simp) hcap
  · exact .raise _ (by simp) (by simp) hbus
  · rw [ha]
    exact .emit bits _ he (hr.imp_right fun hr => by rw [hr]) hok h h2

/-- An emission that writes no RESULT. -/
theorem emitPlain_ending {i : Instr} {s : State} {bits : List Bool} (he : emitsBits i = true)
    (hok : mayEnd i .ok = true) (hcap : mayEnd i .capacityError = true)
    (hbus : mayEnd i .busError = true) : CommandEnding i s (s.emitting bits id) :=
  emitting_ending (r := fun t => t.result) he hok hcap hbus (fun _ => rfl) (.inr fun _ => rfl)

/-- An emission that writes RESULT. -/
theorem emitCounted_ending {i : Instr} {s : State} {bytes : List Byte} {n : Nat}
    (he : emitsBits i = true) (hok : mayEnd i .ok = true)
    (hcap : mayEnd i .capacityError = true) (hbus : mayEnd i .busError = true)
    (hr : writesResult i = true) : CommandEnding i s (s.emitCounted bytes n) :=
  emitting_ending he hok hcap hbus (fun _ => rfl) (.inl hr)

/-- Reading a field at RD_POS delivers it or ends in one of its two errors. -/
theorem readField_ending {i : Instr} {s : State} {n : Nat} (h : readsCursor i = true)
    (hr : writesResult i = true) (hok : mayEnd i .ok = true)
    (hdec : mayEnd i .decodeError = true) (hbus : mayEnd i .busError = true) :
    CommandEnding i s (s.readField n) := by
  unfold State.readField
  cases ht : s.take s.rd.pos.toNat n with
  | error c => rcases take_error ht with rfl | rfl <;> exact .raise _ (by simp) (by simp) (by assumption)
  | ok v => exact .deliver _ _ h hr hok (by omega) (take_ok ht).1

/-- Taking bits one at a time answers the field they are, which lies inside the capacity in admitted bytes. -/
theorem takeEach_ok {s : State} {p n v : Nat} (h : s.takeEach p n = .ok v) :
    v = s.mem.readBits s.rd.base.toNat p n ∧ (p ≤ s.rd.cap.toNat → p + n ≤ s.rd.cap.toNat) ∧
      ∀ j, j < n → s.plat.admits (s.rd.base.toNat + (p + j) / 8) = true := by
  induction n generalizing p v with
  | zero => exact ⟨by simpa [State.takeEach, Memory.readBits] using h.symm, id, by simp⟩
  | succ n ih =>
    rw [State.takeEach, take_one_eq] at h
    split at h
    · simp_all
    rename_i b hb
    split at hb
    · simp at hb
    split at hb
    swap
    · simp at hb
    obtain rfl : (s.mem.bit s.rd.base.toNat p).toNat = b := by simpa using hb
    cases hr : s.takeEach (p + 1) n with
    | error c => simp [hr] at h
    | ok w =>
      obtain ⟨rfl, hcap, hadm⟩ := ih hr
      simp only [hr, Except.ok.injEq] at h
      refine ⟨h.symm, fun _ => by have := hcap (by omega); omega, fun j hj => ?_⟩
      rcases j with _ | j
      · assumption
      · have := hadm j (by omega)
        rwa [show p + (j + 1) = p + 1 + j by omega]

/-- What taking bits one at a time raises (R143). -/
theorem takeEach_error {s : State} {p n : Nat} {c : Code} (h : s.takeEach p n = .error c) :
    c = .decodeError ∨ c = .busError := by
  induction n generalizing p with
  | zero => simp [State.takeEach] at h
  | succ n ih =>
    rw [State.takeEach] at h
    cases ht : s.take p 1 with
    | error c' =>
      obtain rfl : c' = c := by simpa [ht] using h
      exact take_error ht
    | ok b =>
      rw [ht] at h
      cases hr : s.takeEach (p + 1) n with
      | error c' =>
        obtain rfl : c' = c := by simpa [hr] using h
        exact ih hr
      | ok v => simp [hr] at h

/-- The prefix of a code ends inside the capacity. -/
theorem uePrefix_ok {s : State} {f p k p' k' : Nat} (h : s.uePrefix f p k = .ok (p', k')) :
    p < p' ∧ p' ≤ s.rd.cap.toNat := by
  induction f generalizing p k with
  | zero => simp [State.uePrefix] at h
  | succ f ih =>
    rw [State.uePrefix] at h
    cases ht : s.take p 1 with
    | error c => simp [ht] at h
    | ok b =>
      have hle := (take_ok ht).1
      rw [ht] at h
      simp only at h
      split at h
      · simp at h; omega
      · have := ih h; omega

theorem uePrefix_error {s : State} {f p k : Nat} {c : Code} (h : s.uePrefix f p k = .error c) :
    c = .decodeError ∨ c = .busError := by
  induction f generalizing p k with
  | zero => simp [State.uePrefix] at h; simp [← h]
  | succ f ih =>
    rw [State.uePrefix] at h
    cases ht : s.take p 1 with
    | error c' =>
      obtain rfl : c' = c := by simpa [ht] using h
      exact take_error ht
    | ok b =>
      rw [ht] at h
      simp only at h
      split at h
      · simp at h
      · exact ih h

/-- A code ends inside the capacity. -/
theorem ueCode_ok {s : State} {r p : Nat} (h : s.ueCode = .ok (r, p)) :
    s.rd.pos.toNat ≤ p ∧ p ≤ s.rd.cap.toNat := by
  unfold State.ueCode at h
  cases hp : s.uePrefix Config.ueZeroCap s.rd.pos.toNat 0 with
  | error c => simp [hp] at h
  | ok x =>
    have := uePrefix_ok hp
    cases ht : s.takeEach x.1 x.2 with
    | error c => simp [hp, ht] at h
    | ok v =>
      have := (takeEach_ok ht).2.1 (by omega)
      simp [hp, ht] at h
      omega

theorem ueCode_error {s : State} {c : Code} (h : s.ueCode = .error c) :
    c = .decodeError ∨ c = .busError := by
  unfold State.ueCode at h
  cases hp : s.uePrefix Config.ueZeroCap s.rd.pos.toNat 0 with
  | error c' =>
    obtain rfl : c' = c := by simpa [hp] using h
    exact uePrefix_error hp
  | ok x =>
    cases ht : s.takeEach x.1 x.2 with
    | error c' =>
      obtain rfl : c' = c := by simpa [hp, ht] using h
      exact takeEach_error ht
    | ok v => simp [hp, ht] at h

/-- At most all the bits asked for are counted. -/
theorem takable_le (s : State) (p n : Nat) : s.takable p n ≤ n := by
  induction n generalizing p with
  | zero => exact le_rfl
  | succ n ih =>
    rw [State.takable]
    split
    · omega
    · have := ih (p + 1)
      omega

/-- Where all the bits are taken, all are counted. -/
theorem takable_of_ok {s : State} {p n v : Nat} (h : s.takeEach p n = .ok v) : s.takable p n = n := by
  induction n generalizing p v with
  | zero => rfl
  | succ n ih =>
    rw [State.takeEach] at h
    rw [State.takable]
    cases ht : s.take p 1 with
    | error c => simp [ht] at h
    | ok b =>
      cases hr : s.takeEach (p + 1) n with
      | error c => simp [ht, hr] at h
      | ok w => simp [ih hr]

/-- A decoding that completes takes just the bits it consumes (R82). -/
theorem ueTaken_of_ok {s : State} {r p : Nat} (h : s.ueCode = .ok (r, p)) :
    s.rd.pos.toNat + s.ueTaken = p := by
  unfold State.ueCode at h
  unfold State.ueTaken
  cases hp : s.uePrefix Config.ueZeroCap s.rd.pos.toNat 0 with
  | error c => simp [hp] at h
  | ok x =>
    have := (uePrefix_ok hp).1
    cases ht : s.takeEach x.1 x.2 with
    | error c => simp [hp, ht] at h
    | ok v =>
      simp [hp, ht] at h
      simp only [takable_of_ok ht]
      omega

/-- What SPL.NEXT's scan finds, in terms of the units left (R198). -/
theorem scan_cases (s : State) :
    (s.mem.unitsIn s.spl.cur.toNat s.spl.stop.toNat = [] ∧
      s.scan = { cur := s.spl.stop.toNat, active := false, unit := none }) ∨
    (∃ a n, 0 < n ∧ s.spl.cur.toNat ≤ a ∧ a + n ≤ s.spl.stop.toNat ∧
      ((s.mem.findSC a (s.spl.stop.toNat - a) = none ∧
          s.mem.unitsIn s.spl.cur.toNat s.spl.stop.toNat = [(a, n)] ∧
          s.scan = { cur := s.spl.stop.toNat, active := false, unit := some (a, n) }) ∨
        (∃ q, s.mem.findSC a (s.spl.stop.toNat - a) = some q ∧
          s.mem.unitsIn s.spl.cur.toNat s.spl.stop.toNat =
            (a, n) :: s.mem.unitsIn (q + 3) s.spl.stop.toNat ∧
          s.scan = { cur := q + 3, active := true, unit := some (a, n) }))) :=
  nextUnit_spec (by simp [State.scanRegion])

/-- The NAL registers of a unit that is not empty have a length that is not 0 (R55). -/
theorem nalOf_len_ne_zero {s : State} {a n : Nat} (h : 0 < n) (hn : n < 2 ^ 32) :
    (s.nalOf a n).len ≠ 0 := by
  intro h0
  have := congrArg BitVec.toNat h0
  simp [State.nalOf] at this
  omega

/-! ## Every command -/

/-- What the performance of a command can do. -/
theorem exec_ending (i : Instr) (s : State) : ∃ e, exec i s = Ending.settle s e ∧ CommandEnding i s e := by
  cases i <;> refine ⟨_, rfl, ?_⟩
  case rdInit =>
    rcases newCursor_cases s with ⟨h, e⟩ | ⟨h, h2, e⟩ <;> rw [e]
    · exact .raise _ (by simp) (by simp) rfl
    · exact .rdInit rfl h h2
  case rdBits n =>
    split
    · exact .raise _ (by simp) (by simp) rfl
    · exact readField_ending rfl rfl rfl rfl rfl
  case rdBit => exact readField_ending rfl rfl rfl rfl rfl
  case rdSkip n =>
    split
    · exact .same _ (.inl rfl) rfl
    · exact .skip _ rfl rfl (by omega) (by omega)
  case rdUe =>
    cases h : s.ueCode with
    | error c => rcases ueCode_error h with rfl | rfl <;> exact .raise _ (by simp) (by simp) rfl
    | ok x => have := ueCode_ok h; exact .deliver _ _ rfl rfl rfl this.1 this.2
  case rdSe =>
    cases h : s.ueCode with
    | error c => rcases ueCode_error h with rfl | rfl <;> exact .raise _ (by simp) (by simp) rfl
    | ok x => have := ueCode_ok h; exact .deliver _ _ rfl rfl rfl this.1 this.2
  case wrInit =>
    rcases newCursor_cases s with ⟨h, e⟩ | ⟨h, h2, e⟩ <;> rw [e]
    · exact .raise _ (by simp) (by simp) rfl
    · exact .wrInit rfl h h2
  case wrBits n =>
    split
    · exact .raise _ (by simp) (by simp) rfl
    · exact emitPlain_ending rfl rfl rfl rfl
  case scFind =>
    split
    · exact .raise _ (by simp) (by simp) rfl
    split
    · exact .raise _ (by simp) (by simp) rfl
    split
    · exact .same _ (.inr rfl) rfl
    · exact .find _ rfl
  case splInit =>
    split
    · exact .raise _ (by simp) (by simp) rfl
    rename_i hfit
    have hfit' := sourceFits_iff.mp (by simpa using hfit)
    split
    · exact .raise _ (by simp) (by simp) rfl
    split
    · exact .splInit _ _ rfl (.inr rfl) (by simp) (by simp)
    · rename_i q hq
      have := findSC_some hq
      exact .splInit _ _ rfl (.inl rfl) (by simp; omega) (by simp)
  case splNext =>
    split
    · exact .same _ (.inr rfl) rfl
    split
    · exact .raise _ (by simp) (by simp) rfl
    have hstop := s.spl.stop.isLt
    rcases scan_cases s with ⟨h1, h2⟩ | ⟨a, n, h1, h2, h3, ⟨h4, h5, h6⟩ | ⟨q, h4, h5, h6⟩⟩
    · rw [h2]; exact .splNone _ rfl rfl (by simp) (by simp)
    · rw [h6]
      exact .splSome _ _ rfl rfl (by simp) (by simp) (nalOf_len_ne_zero h1 (by omega))
    · rw [h6]
      have := findSC_some h4
      exact .splSome _ _ rfl rfl (by simp; omega) (by simp) (nalOf_len_ne_zero h1 (by omega))
  case rbspExtract =>
    split
    · exact .raise _ (by simp) (by simp) rfl
    split
    · exact .raise _ (by simp) (by simp) rfl
    split
    · exact .raise _ (by simp) (by simp) rfl
    · exact emitCounted_ending rfl rfl rfl rfl rfl
  case flvFhdr => exact emitPlain_ending rfl rfl rfl rfl
  case flvThdr =>
    split
    · exact .raise _ (by simp) (by simp) rfl
    split
    · exact .raise _ (by simp) (by simp) rfl
    · exact emitPlain_ending rfl rfl rfl rfl
  case flvAhdr =>
    split
    · exact .raise _ (by simp) (by simp) rfl
    · exact emitPlain_ending rfl rfl rfl rfl
  case flvVhdr =>
    split
    · exact .raise _ (by simp) (by simp) rfl
    split
    · split
      · exact .raise _ (by simp) (by simp) rfl
      · exact emitPlain_ending rfl rfl rfl rfl
    · exact emitPlain_ending rfl rfl rfl rfl
  case flvPayload =>
    split
    · exact .raise _ (by simp) (by simp) rfl
    split
    · exact .raise _ (by simp) (by simp) rfl
    · exact emitCounted_ending rfl rfl rfl rfl rfl
  case flvPnal =>
    split
    · exact .raise _ (by simp) (by simp) rfl
    split
    · exact .raise _ (by simp) (by simp) rfl
    · exact emitCounted_ending rfl rfl rfl rfl rfl
  case flvPadts =>
    split
    · exact .raise _ (by simp) (by simp) rfl
    split
    · exact .raise _ (by simp) (by simp) rfl
    split
    · exact .raise _ (by simp) (by simp) rfl
    · exact emitCounted_ending rfl rfl rfl rfl rfl
  case flvTrailer =>
    split
    · exact .raise _ (by simp) (by simp) rfl
    · exact emitPlain_ending rfl rfl rfl rfl

end Sys2Proof.Machine
end

