-- ==== Sys2Proof/Laws/PerInstr.lean ====
section
/-! SUPPORT. The statement families made one instruction at a time. -/

namespace Sys2Proof.Laws.OpcodeField

/-- Bits 31:24 of a command's word are its opcode, which is not 0, and bits 23:0 its immediate
(30_encoding.md R110, R122, R123). -/
def Statement (i : Instr) : Prop :=
  opField (encode i) = opcodeOf i ∧ immField (encode i) = immOf i ∧ opcodeOf i ≠ 0

theorem of_opcode (i : Instr) (h : opcodeOf i ≠ 0) : Statement i :=
  ⟨opField_append _ _, immField_append _ _, h⟩

theorem rdInit : Statement .rdInit := of_opcode _ (by decide)
theorem rdBits (n : BitVec 6) : Statement (.rdBits n) := of_opcode _ (by simp [opcodeOf])
theorem rdBit : Statement .rdBit := of_opcode _ (by decide)
theorem rdSkip (n : BitVec 24) : Statement (.rdSkip n) := of_opcode _ (by simp [opcodeOf])
theorem rdUe : Statement .rdUe := of_opcode _ (by decide)
theorem rdSe : Statement .rdSe := of_opcode _ (by decide)
theorem wrInit : Statement .wrInit := of_opcode _ (by decide)
theorem wrBits (n : BitVec 6) : Statement (.wrBits n) := of_opcode _ (by simp [opcodeOf])
theorem scFind : Statement .scFind := of_opcode _ (by decide)
theorem splInit : Statement .splInit := of_opcode _ (by decide)
theorem splNext : Statement .splNext := of_opcode _ (by decide)
theorem rbspExtract : Statement .rbspExtract := of_opcode _ (by decide)
theorem flvFhdr (au vi : Bool) : Statement (.flvFhdr au vi) := of_opcode _ (by simp [opcodeOf])
theorem flvThdr (t : BitVec 5) : Statement (.flvThdr t) := of_opcode _ (by simp [opcodeOf])
theorem flvAhdr (p : BitVec 8) : Statement (.flvAhdr p) := of_opcode _ (by simp [opcodeOf])
theorem flvVhdr (ft : BitVec 4) (p : BitVec 8) : Statement (.flvVhdr ft p) :=
  of_opcode _ (by simp [opcodeOf])
theorem flvPayload : Statement .flvPayload := of_opcode _ (by decide)
theorem flvPnal : Statement .flvPnal := of_opcode _ (by decide)
theorem flvPadts : Statement .flvPadts := of_opcode _ (by decide)
theorem flvTrailer : Statement .flvTrailer := of_opcode _ (by decide)

end Sys2Proof.Laws.OpcodeField
end

