-- ==== Sys2Proof/Laws/Terms.lean ====
section
/-! SUPPORT. What the shared operations do, in the terms the claims use: an emission, a field that is read, the
zero bits before a code, and the start-code search. -/

namespace Sys2Proof.Machine

open Sys2Proof.Safety

/-! ## Emission -/

/-- A command that is one emission, with an update of RESULT alone, ends as R158 says. -/
theorem emitting_endsInEmission {i : Instr} {s : State} (hm : s.mem.wf = true) {bits : List Bool}
    {after : State → State} {n : Nat} {f : Nat → Bool} {r : Word}
    (he : exec i s = Ending.settle s (s.emitting bits after)) (hn : bits.length = n)
    (hf : ∀ j, j < n → bits.getD j false = f j)
    (ha : ∀ t, t.result = s.result → after t = { t with result := r }) :
    EndsInEmission i s n f r := by
  unfold EndsInEmission Raises
  subst hn
  rcases emitting_cases s bits after with ⟨h, e⟩ | ⟨h, h2, e⟩ | ⟨h, h2, e⟩
  · rw [if_pos h, he, e]; rfl
  · rw [if_neg (by omega), if_pos h2, he, e]; rfl
  · rw [if_neg (by omega), if_neg (by simp [h2]), he, e, ha]
    swap
    · rfl
    have haddr : ∀ j, j < bits.length →
        s.wr.base.toNat + (s.wr.pos.toNat + j) / 8 < Config.addrLimit :=
      fun j hj => admitted_span_lt h2 hj
    refine ⟨_, rfl, ⟨fun j hj => ?_, fun p hp => ?_, fun a hh => ?_, ?_, rfl⟩, rfl⟩ <;>
      simp only [finish_mem]
    · rw [Memory.bit_putBits hm haddr, if_pos (by omega), ← hf j hj]
      congr 1; omega
    · rw [Memory.bit_putBits hm haddr, if_neg (by omega)]
    · refine Memory.read_putBits fun j hj => ?_
      rintro rfl
      exact absurd (bitSpan_holds_iff.mpr ⟨j, hj, rfl⟩) (by simpa [State.outSpan] using hh)
    · exact Memory.wf_putBits hm haddr

/-- The same for whole bytes (R220). -/
theorem emitting_endsInBytes {i : Instr} {s : State} (hm : s.mem.wf = true) {l : List Byte}
    {after : State → State} {r : Word}
    (he : exec i s = Ending.settle s (s.emitting (bytesBits l) after))
    (ha : ∀ t, t.result = s.result → after t = { t with result := r }) :
    EndsInBytes i s l r :=
  emitting_endsInEmission hm he (bytesBits_length l) (fun j hj => bytesBits_getD l j hj) ha

/-! ## Reading -/

/-- A command that reads one field ends as R142 says. -/
theorem readField_endsInField {i : Instr} {s : State} {n : Nat} (hn : n ≤ 32)
    (he : exec i s = Ending.settle s (s.readField n)) : EndsInField i s n := by
  unfold EndsInField Raises State.inSpan
  rw [he, State.readField]
  rcases take_cases s s.rd.pos.toNat n with ⟨h, e⟩ | ⟨h, h2, e⟩ | ⟨h, h2, e⟩ <;> rw [e]
  · rw [if_pos h]; rfl
  · rw [if_neg (by omega), if_pos h2]; rfl
  · rw [if_neg (by omega), if_neg (by simp [h2])]
    have hlt := s.mem.readBits_lt s.rd.base.toNat s.rd.pos.toNat n
    have hpow : 2 ^ n ≤ 2 ^ 32 := Nat.pow_le_pow_right (by omega) hn
    have hr : (BitVec.ofNat 32 (s.mem.readBits s.rd.base.toNat s.rd.pos.toNat n)).toNat =
        s.mem.readBits s.rd.base.toNat s.rd.pos.toNat n := by
      rw [BitVec.toNat_ofNat, Nat.mod_eq_of_lt (by omega)]
    refine ⟨_, rfl, ?_, fun j hj => ?_, rfl⟩ <;> simp only [finish_result, State.deliver]
    · omega
    · rw [BitVec.getLsbD, hr, Memory.testBit_readBits]
      simp [show n - 1 - j < n by omega, show n - 1 - (n - 1 - j) = j by omega]

/-- A bit of an admitted span lies in an admitted byte. -/
theorem admitted_bit {p : Platform} {base q n j : Nat} (h : p.admitsAll (bitSpan base q n) = true)
    (hj : j < n) : p.admits (base + (q + j) / 8) = true := by
  have hh := Region.holds_iff.mp
    (bitSpan_holds_iff.mpr ⟨j, hj, rfl⟩ : (bitSpan base q n).holds _ = true)
  exact Platform.admitsAll_iff.mp h _ hh.1 hh.2

/-- Take(1) of an admitted bit inside the capacity answers that bit (R143). -/
theorem take_one {s : State} {p : Nat} (hc : p + 1 ≤ s.rd.cap.toNat)
    (ha : s.plat.admits (s.rd.base.toNat + p / 8) = true) :
    s.take p 1 = .ok (s.mem.bit s.rd.base.toNat p).toNat := by
  rw [take_one_eq, if_neg (by omega), if_pos ha]

/-- The prefix loop passes j readable zero bits (R170). -/
theorem uePrefix_zeros (s : State) (f p k j : Nat) (hj : j < f)
    (hz : ∀ x, x < j → p + x + 1 ≤ s.rd.cap.toNat ∧
      s.plat.admits (s.rd.base.toNat + (p + x) / 8) = true ∧
      s.mem.bit s.rd.base.toNat (p + x) = false) :
    s.uePrefix f p k = s.uePrefix (f - j) (p + j) (k + j) := by
  induction j generalizing f p k with
  | zero => rfl
  | succ j ih =>
    obtain ⟨f, rfl⟩ : ∃ g, f = g + 1 := ⟨f - 1, by omega⟩
    have h0 := hz 0 (by omega)
    have ht : s.take p 1 = .ok 0 := by
      rw [take_one h0.1 h0.2.1]
      have := h0.2.2
      simp only [Nat.add_zero] at this
      simp [this]
    rw [State.uePrefix, ht]
    simp only [Nat.zero_ne_one, if_false]
    rw [ih f (p + 1) (k + 1) (by omega) fun x hx => by
      have := hz (x + 1) (by omega)
      rwa [show p + 1 + x = p + (x + 1) by omega]]
    congr 1 <;> omega

/-- Bits inside the capacity, in admitted bytes, are taken one at a time as the field they are (R143, R266). -/
theorem takeEach_eq {s : State} {p n : Nat}
    (h : ∀ j, j < n → p + j + 1 ≤ s.rd.cap.toNat ∧
      s.plat.admits (s.rd.base.toNat + (p + j) / 8) = true) :
    s.takeEach p n = .ok (s.mem.readBits s.rd.base.toNat p n) := by
  induction n generalizing p with
  | zero => rfl
  | succ n ih =>
    have h0 := h 0 (by omega)
    rw [State.takeEach, take_one h0.1 h0.2]
    simp only
    rw [ih fun j hj => by
      have := h (j + 1) (by omega)
      rwa [show p + 1 + j = p + (j + 1) by omega]]
    rfl

/-- Of bits taken one at a time, the first that cannot be taken gives the error (R266). -/
theorem takeEach_raises {s : State} {p n j : Nat} {c : Code} (hj : j < n)
    (h : ∀ x, x < j → p + x + 1 ≤ s.rd.cap.toNat ∧
      s.plat.admits (s.rd.base.toNat + (p + x) / 8) = true)
    (hc : s.take (p + j) 1 = .error c) : s.takeEach p n = .error c := by
  induction j generalizing p n with
  | zero =>
    obtain ⟨n, rfl⟩ : ∃ m, n = m + 1 := ⟨n - 1, by omega⟩
    rw [State.takeEach, show s.take p 1 = .error c from hc]
  | succ j ih =>
    obtain ⟨n, rfl⟩ : ∃ m, n = m + 1 := ⟨n - 1, by omega⟩
    have h0 := h 0 (by omega)
    rw [State.takeEach, take_one h0.1 h0.2]
    simp only
    rw [ih (by omega) (fun x hx => by
      have := h (x + 1) (by omega)
      rwa [show p + 1 + x = p + (x + 1) by omega])
      (by rwa [show p + 1 + j = p + (j + 1) by omega])]

/-! ## Start codes -/

theorem startCodeAt_iff {m : Memory} {q : Nat} : m.startCodeAt q = true ↔ StartCode m q := by
  simp [Memory.startCodeAt, StartCode, and_assoc]

/-- The search answers q exactly when q is FindSC of the range (R191). -/
theorem findSC_eq_some_iff {m : Memory} {a n q : Nat} :
    m.findSC a n = some q ↔ FirstStartCode m a (a + n) q := by
  constructor
  · intro h
    obtain ⟨h1, h2, h3, h4⟩ := findSC_some h
    exact ⟨h1, h2, startCodeAt_iff.mp h3, fun q' ha hq hc => by
      simp [h4 q' ha hq, ← startCodeAt_iff] at hc⟩
  · rintro ⟨h1, h2, h3, h4⟩
    cases h : m.findSC a n with
    | none =>
      have := findSC_none h q h1 h2
      simp [← startCodeAt_iff, this] at h3
    | some q' =>
      obtain ⟨g1, _, g3, g4⟩ := findSC_some h
      rcases Nat.lt_trichotomy q q' with hl | rfl | hl
      · have := g4 q h1 hl
        simp [← startCodeAt_iff, this] at h3
      · rfl
      · exact absurd (startCodeAt_iff.mp g3) (h4 q' g1 hl)

/-- The search answers none exactly when FindSC of the range is none (R191). -/
theorem findSC_eq_none_iff {m : Memory} {a n : Nat} :
    m.findSC a n = none ↔ NoStartCode m a (a + n) := by
  constructor
  · intro h q h1 h2 h3
    simp [← startCodeAt_iff, findSC_none h q h1 h2] at h3
  · intro h
    cases hh : m.findSC a n with
    | none => rfl
    | some q =>
      obtain ⟨h1, h2, h3, _⟩ := findSC_some hh
      exact absurd (startCodeAt_iff.mp h3) (h q h1 h2)

/-! ## NAL units -/

/-- Two start codes do not overlap. -/
theorem startCode_apart {m : Memory} {q q' : Nat} (h : StartCode m q) (h' : StartCode m q') (hlt : q < q') :
    q + 3 ≤ q' := by
  obtain ⟨-, -, h1⟩ := h
  obtain ⟨h2, h3, -⟩ := h'
  by_contra hn
  obtain rfl | rfl : q' = q + 1 ∨ q' = q + 2 := by omega
  · rw [show q + 1 + 1 = q + 2 by omega, h1] at h3; simp at h3
  · rw [h1] at h2; simp at h2

/-- The units from s on: the trimmed span up to the next start code, if it is not empty, and the units after that
start code (R193, R194). -/
theorem unitsIn_eq (m : Memory) (e s : Nat) : m.unitsIn s e =
    match m.findSC s (e - s) with
    | none => if m.trimmed s (e - s) = 0 then [] else [(s, m.trimmed s (e - s))]
    | some q =>
      if m.trimmed s (q - s) = 0 then m.unitsIn (q + 3) e
      else (s, m.trimmed s (q - s)) :: m.unitsIn (q + 3) e := by
  rw [Memory.unitsIn, Memory.unitsFrom]
  cases h : m.findSC s (e - s) with
  | none => rfl
  | some q =>
    have hq := findSC_some h
    have : m.unitsFrom e (e - s) (q + 3) = m.unitsIn (q + 3) e :=
      unitsFrom_fuel (by omega) (by omega)
    simp only [this]

/-- A span has one end. -/
theorem spanEnd_unique {m : Memory} {e a x y : Nat} (h : a ≤ e) (hx : SpanEnd m e a x)
    (hy : SpanEnd m e a y) : x = y := by
  rw [show e = a + (e - a) by omega, SpanEnd, ← findSC_eq_some_iff, ← findSC_eq_none_iff] at hx hy
  rcases hx with hx | ⟨hx, rfl⟩ <;> rcases hy with hy | ⟨hy, rfl⟩ <;> simp_all

/-- The trim computes the trimmed unit of a span whose end is known (R193). -/
theorem trimmedUnit_iff {m : Memory} {s e stop n : Nat} (hs : s ≤ stop) (he : stop ≤ e)
    (h : SpanEnd m e s stop) : TrimmedUnit m e s n ↔ m.trimmed s (stop - s) = n ∧ n ≠ 0 := by
  obtain ⟨t1, t2, t3⟩ := trimmed_spec m s (stop - s)
  constructor
  · rintro ⟨h1, h2, x, h3, -, h5, h6⟩
    obtain rfl := spanEnd_unique (by omega) h3 h
    refine ⟨?_, by omega⟩
    rcases Nat.lt_trichotomy (m.trimmed s (x - s)) n with hl | hl | hl
    · have := t3 (n - 1) (by omega) (by omega)
      rw [show s + (n - 1) = s + n - 1 by omega] at this
      contradiction
    · exact hl
    · exact absurd (h6 _ (by omega) (by omega)) (t2 (by omega))
  · rintro ⟨rfl, h0⟩
    refine ⟨by omega, t2 (by omega), stop, h, he, by omega, fun x h1 h2 => ?_⟩
    have := t3 (x - s) (by omega) (by omega)
    rwa [show s + (x - s) = x by omega] at this

/-- A unit lies between the scan address and the end. -/
theorem unitAhead_bounds {m : Memory} {s e a n : Nat} (h : UnitAhead m s e a n) :
    s ≤ a ∧ 1 ≤ n ∧ a + n ≤ e := by
  obtain ⟨h1, h2, -, x, -, h4, h5, -⟩ := h
  rcases h1 with rfl | ⟨h1, -⟩ <;> omega

/-- Past a start code the units ahead are that of the span before it and those after it. -/
theorem unitAhead_step {m : Memory} {s e q a n : Nat} (h : FirstStartCode m s e q) :
    UnitAhead m s e a n ↔ a = s ∧ TrimmedUnit m e s n ∨ UnitAhead m (q + 3) e a n := by
  obtain ⟨h1, h2, h3, h4⟩ := h
  constructor
  · rintro ⟨rfl | ⟨g1, g2⟩, g3⟩
    · exact .inl ⟨rfl, g3⟩
    · refine .inr ⟨?_, g3⟩
      rcases Nat.lt_trichotomy (a - 3) q with hl | hl | hl
      · exact absurd g2 (h4 _ (by omega) hl)
      · exact .inl (by omega)
      · exact .inr ⟨by have := startCode_apart h3 g2 hl; omega, g2⟩
  · rintro (⟨rfl, g⟩ | ⟨rfl | ⟨g1, g2⟩, g⟩)
    · exact ⟨.inl rfl, g⟩
    · exact ⟨.inr ⟨by omega, by simpa using h3⟩, g⟩
    · exact ⟨.inr ⟨by omega, g2⟩, g⟩

/-- The units the split lists are exactly the trimmed units ahead (R193, R194). -/
theorem mem_unitsIn_iff (m : Memory) (s e a n : Nat) :
    (a, n) ∈ m.unitsIn s e ↔ UnitAhead m s e a n := by
  by_cases hse : s ≤ e
  swap
  · rw [unitsIn_eq, show e - s = 0 by omega]
    simp only [Memory.findSC, Memory.trimmed, if_true, List.not_mem_nil, false_iff]
    exact fun h => by have := unitAhead_bounds h; omega
  generalize hd : e - s = d
  induction d using Nat.strongRecOn generalizing s with
  | ind d ih =>
    rw [unitsIn_eq]
    cases h : m.findSC s (e - s) with
    | none =>
      have hno := findSC_eq_none_iff.mp h
      rw [show s + (e - s) = e by omega] at hno
      have ht := trimmedUnit_iff (n := n) hse le_rfl (.inr ⟨hno, rfl⟩)
      have hsole : UnitAhead m s e a n ↔ a = s ∧ TrimmedUnit m e s n := by
        constructor
        · rintro ⟨rfl | ⟨g1, g2⟩, g3⟩
          · exact ⟨rfl, g3⟩
          · have := unitAhead_bounds ⟨.inl rfl, g3⟩
            exact absurd g2 (hno _ (by omega) (by omega))
        · rintro ⟨rfl, g⟩
          exact ⟨.inl rfl, g⟩
      rw [hsole, ht]
      by_cases h0 : m.trimmed s (e - s) = 0 <;> simp [h0] <;> omega
    | some q =>
      have hf := findSC_eq_some_iff.mp h
      rw [show s + (e - s) = e by omega] at hf
      have hle := hf.1
      have hq := hf.2.1
      have ht := trimmedUnit_iff (n := n) hle (by omega) (.inl hf)
      rw [unitAhead_step hf, ht, ← ih (e - (q + 3)) (by omega) (q + 3) (by omega) rfl]
      by_cases h0 : m.trimmed s (q - s) = 0
      · simp only [h0, if_true]
        exact ⟨.inr, by rintro (⟨-, rfl, h⟩ | h) <;> first | exact h | contradiction⟩
      · simp only [h0, if_false, List.mem_cons, Prod.mk.injEq]
        refine or_congr_left (and_congr_right fun _ => ⟨fun h => ⟨h.symm, ?_⟩, fun h => h.1.symm⟩)
        omega

/-- The split lists the units by rising address. -/
theorem unitsIn_pairwise (m : Memory) (s e : Nat) :
    (m.unitsIn s e).Pairwise fun u v => u.1 < v.1 := by
  generalize hd : e - s = d
  induction d using Nat.strongRecOn generalizing s with
  | ind d ih =>
    rw [unitsIn_eq]
    cases h : m.findSC s (e - s) with
    | none => simp only; split <;> simp
    | some q =>
      have hq := findSC_some h
      have hrest := ih (e - (q + 3)) (by omega) (q + 3) rfl
      simp only
      split
      · exact hrest
      · refine List.pairwise_cons.mpr ⟨fun u hu => ?_, hrest⟩
        have := unitAhead_bounds ((mem_unitsIn_iff m _ _ _ _).mp hu)
        simp only
        omega

/-- The search reads only the range. -/
theorem findSC_congr {m m' : Memory} {a n : Nat}
    (h : ∀ x, a ≤ x → x < a + n → m.read x = m'.read x) : m.findSC a n = m'.findSC a n := by
  induction n generalizing a with
  | zero => rfl
  | succ n ih =>
    rw [Memory.findSC, Memory.findSC, ih fun x h1 h2 => h x (by omega) (by omega)]
    by_cases h3 : 3 ≤ n + 1
    · have : m.startCodeAt a = m'.startCodeAt a := by
        simp only [Memory.startCodeAt, h a (by omega) (by omega), h (a + 1) (by omega) (by omega),
          h (a + 2) (by omega) (by omega)]
      rw [this]
    · simp [h3]

/-- The trim reads only the span. -/
theorem trimmed_congr {m m' : Memory} {a n : Nat}
    (h : ∀ x, a ≤ x → x < a + n → m.read x = m'.read x) : m.trimmed a n = m'.trimmed a n := by
  induction n with
  | zero => rfl
  | succ n ih =>
    rw [Memory.trimmed, Memory.trimmed, h _ (by omega) (by omega),
      ih fun x h1 h2 => h x h1 (by omega)]

/-- The split reads only the range (R199). -/
theorem unitsIn_congr {m m' : Memory} {s e : Nat}
    (h : ∀ x, s ≤ x → x < e → m.read x = m'.read x) : m.unitsIn s e = m'.unitsIn s e := by
  generalize hd : e - s = d
  induction d using Nat.strongRecOn generalizing s with
  | ind d ih =>
    rw [unitsIn_eq, unitsIn_eq, findSC_congr fun x h1 h2 => h x h1 (by omega),
      trimmed_congr (n := e - s) fun x h1 h2 => h x h1 (by omega)]
    cases hf : m'.findSC s (e - s) with
    | none => rfl
    | some q =>
      have hq := findSC_some hf
      simp only
      rw [trimmed_congr (n := q - s) fun x h1 h2 => h x h1 (by omega),
        ih (e - (q + 3)) (by omega) (fun x h1 h2 => h x (by omega) h2) rfl]

end Sys2Proof.Machine
end

