-- ==== Sys2Proof/Tests/Slice0.lean ====
section
/-! SUPPORT. The model's own tests: the smoke test of WellFormed, one written-out word for every constructor,
one or two steps of each command with the values that 95_test_vectors.md gives (the vector's number is in the
comment), and for every claim with hypotheses a concrete state that meets them. -/

namespace Sys2Proof.Tests

open Sys2Proof.Machine Sys2Proof.Safety

/-! ## Helpers -/

/-- The outcome is a next state with the property. -/
def answers (o : Host.Outcome State Fault Refusal) (p : State → Bool) : Bool :=
  match o with
  | .next t => p t
  | .fault _ => false
  | .refused _ => false

/-- Memory with the bytes written from address a on. -/
def load (m : Memory) (a : Nat) : List Byte → Memory
  | [] => m
  | b :: rest => load (m.write a b) (a + 1) rest

/-- A reader over the bytes, at bit position pos. -/
def reader (bytes : List Byte) (pos : Nat) : State :=
  { State.reset with
    mem := load [] 0x1000 bytes
    rd := { base := 0x1000, cap := BitVec.ofNat 32 (8 * bytes.length), pos := BitVec.ofNat 32 pos } }

/-- A writer of n bytes at 0x6000, at bit position pos, with latched operands A and B. -/
def writer (n pos : Nat) (a b : Word) : State :=
  { State.reset with
    wr := { base := 0x6000, cap := BitVec.ofNat 32 (8 * n), pos := BitVec.ofNat 32 pos }
    latA := a, latB := b }

/-- The bytes stand at 0x3000 and are the source range. -/
def sourced (bytes : List Byte) (s : State) : State :=
  { s with
    mem := load s.mem 0x3000 bytes
    latA := 0x3000, latB := BitVec.ofNat 32 bytes.length }

/-- The command word w is pending, with its latency run out. -/
def pending (w : Word) (s : State) : State :=
  { s with cmd := w, status := { s.status with busy := true } }

/-- No address below 0x1001 is admitted. -/
def holed (s : State) : State :=
  { s with plat := { regBase := 0, regions := [{ start := 0x1001, len := 0x1000 }] } }

/-- The command completed with code c, RESULT r and RD_POS p. -/
def readTo (c : Code) (r : Word) (p : Nat) (t : State) : Bool :=
  t.status.code == c && t.result == r && t.rd.pos.toNat == p && !t.status.busy

/-- The command completed with OK, RESULT r, WR_POS p, and left these bytes at 0x6000. -/
def wroteTo (bytes : List Byte) (p : Nat) (r : Word) (t : State) : Bool :=
  t.status.code == .ok && t.mem.bytes 0x6000 bytes.length == bytes && t.wr.pos.toNat == p
    && t.result == r

/-- The command raised c: STATUS is word, and the rest is as in s. -/
def raised (c : Code) (word : Word) (s t : State) : Bool :=
  t.status.word == word && decide (t = takeError c s)

/-- The frame of vector S5. -/
def frame : List Byte :=
  [0x00, 0x00, 0x00, 0x01, 0x67, 0xAA, 0xBB, 0x00, 0x00, 0x00, 0x01, 0x68, 0xCC]

/-- A splitter with SPL_CUR, SPL_END and SPL_ACTIVE. -/
def splitting (bytes : List Byte) (cur stop : Word) (active : Bool) : State :=
  { sourced bytes State.reset with spl := { cur := cur, stop := stop, active := active } }

/-! ## WellFormed: each check refuses an ill-formed term -/

theorem test_wellFormed_rdBits : (Instr.rdBits 0).wellFormed = false ∧
    (Instr.rdBits 33).wellFormed = false ∧ (Instr.rdBits 32).wellFormed = true := by decide
theorem test_wellFormed_wrBits : (Instr.wrBits 0).wellFormed = false ∧
    (Instr.wrBits 33).wellFormed = false ∧ (Instr.wrBits 1).wellFormed = true := by decide
theorem test_wellFormed_flvThdr : (Instr.flvThdr 10).wellFormed = false ∧
    (Instr.flvThdr 18).wellFormed = true := by decide
theorem test_wellFormed_flvAhdr : (Instr.flvAhdr 2).wellFormed = false ∧
    (Instr.flvAhdr 1).wellFormed = true := by decide
theorem test_wellFormed_flvVhdr : (Instr.flvVhdr 1 3).wellFormed = false ∧
    (Instr.flvVhdr 15 2).wellFormed = true := by decide

/-! ## Decoding: words written out from R115 and R122 -/

theorem test_decode_rdInit : decode 0x01000000 = .instr .rdInit := by decide
theorem test_decode_rdBits : decode 0x02000003 = .instr (.rdBits 3) := by decide
theorem test_decode_rdBit : decode 0x03000000 = .instr .rdBit := by decide
theorem test_decode_rdSkip : decode 0x04800006 = .instr (.rdSkip 0x800006) := by decide
theorem test_decode_rdUe : decode 0x05000000 = .instr .rdUe := by decide
theorem test_decode_rdSe : decode 0x06000000 = .instr .rdSe := by decide
theorem test_decode_wrInit : decode 0x10000000 = .instr .wrInit := by decide
theorem test_decode_wrBits : decode 0x11000020 = .instr (.wrBits 32) := by decide
theorem test_decode_scFind : decode 0x20000000 = .instr .scFind := by decide
theorem test_decode_splInit : decode 0x21000000 = .instr .splInit := by decide
theorem test_decode_splNext : decode 0x22000000 = .instr .splNext := by decide
theorem test_decode_rbspExtract : decode 0x28000000 = .instr .rbspExtract := by decide
theorem test_decode_flvFhdr : decode 0x30000004 = .instr (.flvFhdr true false) := by decide
theorem test_decode_flvThdr : decode 0x31000012 = .instr (.flvThdr 18) := by decide
theorem test_decode_flvAhdr : decode 0x32000001 = .instr (.flvAhdr 1) := by decide
theorem test_decode_flvVhdr : decode 0x33000201 = .instr (.flvVhdr 2 1) := by decide
theorem test_decode_flvPayload : decode 0x34000000 = .instr .flvPayload := by decide
theorem test_decode_flvPnal : decode 0x35000000 = .instr .flvPnal := by decide
theorem test_decode_flvPadts : decode 0x36000000 = .instr .flvPadts := by decide
theorem test_decode_flvTrailer : decode 0x37000000 = .instr .flvTrailer := by decide

/-- V15, V20, V82: a bit that the format marks 0. -/
theorem test_decode_reservedBits : decode 0x02000048 = .reservedBits ∧
    decode 0x01000001 = .reservedBits ∧ decode 0x30000002 = .reservedBits ∧
    decode 0x31000020 = .reservedBits ∧ decode 0x32000100 = .reservedBits ∧
    decode 0x33001000 = .reservedBits := by decide

/-- V21, V22. -/
theorem test_decode_reservedOpcode : decode 0x07000000 = .reservedOpcode ∧
    decode 0xFF000000 = .reservedOpcode ∧ decode 0 = .reservedOpcode := by decide

theorem test_decodeTableWord : decodeTableWord 32 0x33000201 = some (.flvVhdr 2 1) ∧
    decodeTableWord 32 0 = none := by decide

/-! ## The commands -/

/-- V18. -/
theorem test_rdInit : answers (exec .rdInit { State.reset with latA := 0xFFFFFFFE, latB := 1 })
    (fun t => t.status.word == 0 && decide (t.rd = { base := 0xFFFFFFFE, cap := 8, pos := 0 })) = true := by
  decide
/-- V2. -/
theorem test_rdBits : answers (exec (.rdBits 7) (reader [0xA5, 0x3C] 3)) (readTo .ok 0x14 10) = true := by
  decide
/-- V10: 32 bits that are not byte-aligned. -/
theorem test_rdBits_32 :
    answers (exec (.rdBits 32) (reader [0x12, 0x34, 0x56, 0x78, 0x9A] 4))
      (readTo .ok 0x23456789 36) = true := by decide
/-- V3. -/
theorem test_rdBit : answers (exec .rdBit (reader [0xA5, 0x3C] 10)) (readTo .ok 1 11) = true := by decide
/-- The variant after V4. -/
theorem test_rdSkip : answers (exec (.rdSkip 5) (reader [0xA5, 0x3C] 11)) (readTo .ok 0 16) = true := by
  decide
/-- V5: a skip past the capacity. -/
theorem test_rdSkip_past : answers (exec (.rdSkip 6) (reader [0xA5, 0x3C] 11)) (readTo .ok 0 11) = true := by
  decide
/-- V41: 31 zero bits, the largest value. -/
theorem test_rdUe :
    answers (exec .rdUe (reader [0, 0, 0, 1, 0xFF, 0xFF, 0xFF, 0xFE] 0))
      (readTo .ok 0xFFFFFFFE 63) = true := by decide
/-- V36: the fourth code. -/
theorem test_rdUe_short : answers (exec .rdUe (reader [0xA6, 0x42, 0x80] 7)) (readTo .ok 3 12) = true := by
  decide
/-- V42. -/
theorem test_rdSe :
    answers (exec .rdSe (reader [0, 0, 0, 1, 0xFF, 0xFF, 0xFF, 0xFE] 0))
      (readTo .ok 0x80000001 63) = true := by decide
/-- V38: the fourth code. -/
theorem test_rdSe_short : answers (exec .rdSe (reader [0xA6, 0x42, 0x80] 7)) (readTo .ok 2 12) = true := by
  decide
/-- The set-up of V23. -/
theorem test_wrInit : answers (exec .wrInit { State.reset with latA := 0x2000, latB := 4 })
    (fun t => t.status.word == 0 && decide (t.wr = { base := 0x2000, cap := 32, pos := 0 })
      && decide (t.rd = State.reset.rd)) = true := by decide
/-- V31. -/
theorem test_wrBits :
    answers (exec (.wrBits 16) (writer 3 4 0x1234 0)) (wroteTo [0x01, 0x23, 0x40] 20 0) = true := by
  decide
/-- V30: the other bits of a partly written byte keep their values. -/
theorem test_wrBits_keeps :
    answers (exec (.wrBits 1) { writer 1 0 0 0 with mem := [(0x6000, 0xFF)] })
      (wroteTo [0x7F] 1 0) = true := by decide
/-- V54. -/
theorem test_scFind : answers (exec .scFind (sourced [0x00, 0x00, 0x00, 0x01, 0x67] State.reset))
    (readTo .ok 0x3001 0) = true := by decide
/-- V56. -/
theorem test_scFind_none : answers (exec .scFind (sourced [0x00, 0x00] State.reset))
    (fun t => t.status.word == 0x20 && t.result == 0) = true := by decide
/-- S5. -/
theorem test_splInit : answers (exec .splInit (sourced frame State.reset))
    (fun t => t.status.word == 0 &&
      decide (t.spl = { cur := 0x3004, stop := 0x300D, active := true })) = true := by decide
/-- V63. -/
theorem test_splInit_none : answers (exec .splInit (sourced [0x00, 0x00, 0x02] State.reset))
    (fun t => t.status.word == 0x20 &&
      decide (t.spl = { cur := 0x3003, stop := 0x3003, active := false })) = true := by decide
/-- S5, the first unit. -/
theorem test_splNext : answers (exec .splNext (splitting frame 0x3004 0x300D true))
    (fun t => t.status.word == 0 && decide (t.nal = { addr := 0x3004, len := 3, unitType := 7 }) &&
      decide (t.spl = { cur := 0x300B, stop := 0x300D, active := true })) = true := by decide
/-- V62: a unit of zeros only is none. -/
theorem test_splNext_zeros :
    answers (exec .splNext (splitting [0x00, 0x00, 0x01, 0x00, 0x00] 0x3003 0x3005 true))
      (fun t => t.status.word == 0x20 && decide (t.nal = State.reset.nal) &&
        decide (t.spl = { cur := 0x3005, stop := 0x3005, active := false })) = true := by decide
/-- V68. -/
theorem test_rbspExtract :
    answers (exec .rbspExtract (sourced [0x67, 0x00, 0x00, 0x00, 0x03, 0x03] (writer 16 0 0 0)))
      (wroteTo [0x00, 0x00, 0x00, 0x03] 32 4) = true := by decide
/-- V77: the output is not byte-aligned. -/
theorem test_rbspExtract_bits :
    answers (exec .rbspExtract
        { sourced [0x67, 0x00, 0x00, 0x03, 0x01] (writer 4 4 0 0) with
          mem := load [] 0x3000 [0x67, 0x00, 0x00, 0x03, 0x01, 0xFF] |>.write 0x6000 0xF0 })
      (wroteTo [0xF0, 0x00, 0x00, 0x10] 28 3) = true := by decide
set_option maxRecDepth 4096 in
/-- V79. -/
theorem test_flvFhdr : answers (exec (.flvFhdr true false) (writer 32 0 0 0))
    (wroteTo [0x46, 0x4C, 0x56, 0x01, 0x04, 0, 0, 0, 9, 0, 0, 0, 0] 104 0) = true := by decide
/-- V83. -/
theorem test_flvThdr : answers (exec (.flvThdr 18) (writer 32 0 0x123 0x12345678))
    (wroteTo [0x12, 0x00, 0x01, 0x23, 0x34, 0x56, 0x78, 0x12, 0, 0, 0] 88 0) = true := by decide
/-- V89. -/
theorem test_flvAhdr : answers (exec (.flvAhdr 1) (writer 32 0 0 0)) (wroteTo [0xAF, 0x01] 16 0) = true := by
  decide
/-- V92: composition time -40. -/
theorem test_flvVhdr : answers (exec (.flvVhdr 1 1) (writer 32 0 0xFFFFFFD8 0))
    (wroteTo [0x17, 0x01, 0xFF, 0xFF, 0xD8] 40 0) = true := by decide
/-- V93: no composition time in a sequence header. -/
theorem test_flvVhdr_header : answers (exec (.flvVhdr 1 0) (writer 32 0 40 0))
    (wroteTo [0x17, 0x00, 0x00, 0x00, 0x00] 40 0) = true := by decide
/-- V107. -/
theorem test_flvPayload : answers (exec .flvPayload (sourced [0x65, 0x88, 0x84] (writer 32 0 0 0)))
    (wroteTo [0x65, 0x88, 0x84] 24 3) = true := by decide
/-- V105. -/
theorem test_flvPnal : answers (exec .flvPnal (sourced [0x65, 0x88, 0x84] (writer 32 0 0 0)))
    (wroteTo [0x00, 0x00, 0x00, 0x03, 0x65, 0x88, 0x84] 56 7) = true := by decide
/-- V109. -/
theorem test_flvPadts :
    answers (exec .flvPadts
        (sourced [0xFF, 0xF1, 0x50, 0x80, 0x01, 0x3F, 0xFC, 0x21, 0x1A] (writer 32 0 0 0)))
      (wroteTo [0x21, 0x1A] 16 2) = true := by decide
/-- S9: dataSize 28. -/
theorem test_flvTrailer : answers (exec .flvTrailer (writer 32 0 28 0))
    (wroteTo [0x00, 0x00, 0x00, 0x27] 32 0) = true := by decide

/-! ## The step -/

/-- An idle block with an idle host stays as it is (R281). -/
theorem test_step_idle : step State.reset = .next State.reset := rfl
/-- V19, through the step: after reset a read finds no bits. -/
theorem test_step_first : answers (step (State.reset.withFetchWord 32 0x03000000))
    (fun t => t.status.word == 0x14 && t.cmd == 0x03000000) = true := by decide

/-! ## States that meet the hypotheses of the claims -/

theorem test_witness_DecodedWordIsItsEncoding :
    decode 0x33000F03 = .instr (.flvVhdr 15 3) ∧ decode 0x04FFFFFF = .instr (.rdSkip 0xFFFFFF) := by
  decide

/-- Both clauses: a race, and none. -/
theorem test_witness_StepRunsTheDecodedCommand :
    (BlockMoves (pending 0x05000000 (reader [0x80] 0)) ∧
      decode (pending 0x05000000 (reader [0x80] 0)).cmd = .instr .rdUe ∧
      (pending 0x05000000 (reader [0x80] 0)).env.raced = false) ∧
    (let s := pending 0x11000008 { writer 1 0 0x5A 0 with env := { State.reset.env with raced := true } };
      BlockMoves s ∧ decode s.cmd = .instr (.wrBits 8) ∧ s.env.raced = true) :=
  ⟨⟨⟨rfl, .inl rfl⟩, by decide, rfl⟩, ⟨rfl, .inl rfl⟩, by decide, rfl⟩

/-- Every end of every reserved range of R123. -/
theorem test_witness_ReservedOpcodeIsIllegalCommand :
    ∀ op ∈ [0x00, 0x07, 0x0F, 0x12, 0x1F, 0x23, 0x27, 0x29, 0x2F, 0x38, 0xFF],
      let s := pending (BitVec.ofNat 32 (op * 2 ^ 24)) State.reset;
      (s.status.busy = true ∧ s.env.queue = []) ∧
        (let o := (opField s.cmd).toNat;
          o = 0 ∨ (0x07 ≤ o ∧ o ≤ 0x0F) ∨ (0x12 ≤ o ∧ o ≤ 0x1F) ∨ (0x23 ≤ o ∧ o ≤ 0x27) ∨
            (0x29 ≤ o ∧ o ≤ 0x2F) ∨ (0x38 ≤ o ∧ o ≤ 0xFF)) ∧
        answers (step s) (raised .illegalCommand 0x42 s) = true := by
  decide

/-- One bit for every row of reservedMask. -/
theorem test_witness_ReservedBitIsIllegalOperand :
    ∀ w ∈ [0x02000040, 0x11800000, 0x30000002, 0x31000020, 0x32000100, 0x33001000, 0x01000001],
      let s := pending (BitVec.ofNat 32 w) State.reset;
      (s.status.busy = true ∧ s.env.queue = []) ∧
        immField s.cmd &&& reservedMask (opField s.cmd).toNat ≠ 0 ∧
        answers (step s) (raised .illegalOperand 0x52 s) = true := by
  decide

/-- V4. -/
theorem test_witness_RaiseChangesOnlyStatus :
    let s := pending 0x02000006 (reader [0xA5, 0x3C] 11);
    answers (perform s) (fun t =>
      t.status.code != .ok && t.status.code != .notFound && raised .decodeError 0x14 s t) = true := by
  decide

/-- A command that does not write RESULT, and one that raises. -/
theorem test_witness_ResultIsWrittenOnlyOnOk :
    (answers (exec (.rdSkip 1) (reader [0] 0)) (fun _ => writesResult (.rdSkip 1) == false) = true) ∧
    (answers (exec .rdBit (reader [] 0)) (fun t => t.status.code != .ok) = true) := by decide

theorem test_witness_CommandsKeepHostRegisters :
    answers (exec .flvPnal (sourced [0x65] (writer 8 0 0 0))) (fun _ => true) = true := by decide

/-- Both clauses: a read, and a command that leaves the reader alone. -/
theorem test_witness_ReaderRegistersMoveForward :
    (answers (exec .rdBit (reader [0x80] 0)) (fun t => t.rd.pos == 1) = true) ∧
    (answers (exec .wrInit (reader [0x80] 0)) (fun _ => readsCursor .wrInit == false) = true) ∧
    (answers (exec .rdBit (reader [] 0)) (fun t => t.status.code != .ok) = true) := by decide

theorem test_witness_WriterRegistersMoveForward :
    (answers (exec (.wrBits 1) (writer 1 0 1 0)) (fun t => t.wr.pos == 1) = true) ∧
    (answers (exec .rdInit (writer 1 0 1 0)) (fun _ => emitsBits .rdInit == false) = true) ∧
    (answers (exec (.wrBits 1) (writer 0 0 1 0)) (fun t => t.status.code != .ok) = true) := by decide

theorem test_witness_SplitterRegistersHaveTheirWriters :
    (answers (exec .rdBit (reader [0x80] 0)) (fun _ => true) = true) ∧
    (answers (exec .splNext (splitting frame 0x3004 0x300D true)) (fun t => t.nal.len == 3) = true) ∧
    (answers (exec .splNext (splitting frame 0x300D 0x300D false))
      (fun t => t.status.code != .ok) = true) := by
  decide

/-- Both clauses: a command that emits nothing, and bytes on both sides of what one writes. -/
theorem test_witness_MemoryOutsideTheWriteSetIsKept :
    (emitsBits .rdBit = false ∧ answers (exec .rdBit (reader [0x80] 0)) (fun _ => true) = true) ∧
    answers (exec (.wrBits 9) (writer 4 8 1 0)) (fun _ => true) = true ∧
    (writeSet (.wrBits 9) (writer 4 8 1 0)).holds 0x6000 = false ∧
    (writeSet (.wrBits 9) (writer 4 8 1 0)).holds 0x6001 = true ∧
    (writeSet (.wrBits 9) (writer 4 8 1 0)).holds 0x6002 = true ∧
    (writeSet (.wrBits 9) (writer 4 8 1 0)).holds 0x6003 = false := by decide

theorem test_witness_EveryStepKeepsTheInvariant :
    Inv (pending 0x05000000 (reader [0xA6, 0x42, 0x80] 24)) ∧
      answers (step (pending 0x05000000 (reader [0xA6, 0x42, 0x80] 24))) (fun _ => true) = true :=
  ⟨by constructor <;> first | decide | (constructor <;> decide), by decide⟩

theorem test_witness_WaitingHostSeesCompletion :
    let s := { pending 0x03000000 (reader [0x80] 0) with
      env := { State.reset.env with queue := [.wait], delay := 2 } }
    s.status.busy = true ∧ s.env.queue = .wait :: [] := by decide

/-- Both ends of both ranges of R140: the longest buffer, the highest end. -/
theorem test_witness_RdInitSetsTheReader :
    ∀ ab ∈ [(0, 0x1FFFFFFF, true), (0, 0x20000000, false), (0xFFFFFFFE, 1, true),
        (0xFFFFFFFF, 1, false)],
      let s := { State.reset with latA := BitVec.ofNat 32 ab.1, latB := BitVec.ofNat 32 ab.2.1 };
      answers (exec .rdInit s) (fun t =>
        if ab.2.2 then t.status.code == .ok && t.rd.base.toNat == ab.1 && t.rd.cap.toNat == 8 * ab.2.1
        else raised .illegalOperand 0x52 s t) = true := by decide

theorem test_witness_WrInitSetsTheWriter :
    ∀ ab ∈ [(0, 0x1FFFFFFF, true), (0, 0x20000000, false), (0xFFFFFFFE, 1, true),
        (0xFFFFFFFF, 1, false)],
      let s := { State.reset with latA := BitVec.ofNat 32 ab.1, latB := BitVec.ofNat 32 ab.2.1 };
      answers (exec .wrInit s) (fun t =>
        if ab.2.2 then t.status.code == .ok && t.wr.base.toNat == ab.1 && t.wr.cap.toNat == 8 * ab.2.1
        else raised .illegalOperand 0x52 s t) = true := by decide

/-- V13, V14, V12, V121, and the last bit of the capacity. -/
theorem test_witness_RdBitsReadsTheField :
    answers (exec (.rdBits 0) (reader [0xA5] 0)) (raised .illegalOperand 0x52 (reader [0xA5] 0)) = true ∧
    answers (exec (.rdBits 33) (reader [0xA5] 0)) (raised .illegalOperand 0x52 (reader [0xA5] 0)) = true ∧
    answers (exec (.rdBits 1) (reader [0xA5] 8)) (raised .decodeError 0x14 (reader [0xA5] 8)) = true ∧
    answers (exec (.rdBits 8) (holed (reader [0xA5] 0)))
      (raised .busError 0x62 (holed (reader [0xA5] 0))) = true ∧
    answers (exec (.rdBits 1) (reader [0xA5] 7)) (readTo .ok 1 8) = true := by decide

/-- The shortest and the longest code. -/
theorem test_witness_RdUeDecodesEveryCode :
    (let s := reader [0x80] 0;
      CodeAt s.mem s.rd.base.toNat s.rd.pos.toNat 0 ∧
      s.rd.pos.toNat + codeBits 0 ≤ s.rd.cap.toNat ∧
      s.plat.admitsAll (s.inSpan (codeBits 0)) = true) ∧
    (let s := reader [0, 0, 0, 1, 0xFF, 0xFF, 0xFF, 0xFE] 0;
      2 ^ 32 - 2 ≤ 2 ^ 32 - 2 ∧
      CodeAt s.mem s.rd.base.toNat s.rd.pos.toNat (2 ^ 32 - 2) ∧
      s.rd.pos.toNat + codeBits (2 ^ 32 - 2) ≤ s.rd.cap.toNat ∧
      s.plat.admitsAll (s.inSpan (codeBits (2 ^ 32 - 2))) = true) := by
  unfold CodeAt; decide

theorem test_witness_RdUeReturnsOnlyCodeValues :
    answers (exec .rdUe (reader [0x80] 0)) (fun t => t.status.code == .ok) = true := by decide

/-- V40. -/
theorem test_witness_ThirtyTwoZerosRaiseDecodeError :
    let s := reader [0, 0, 0, 0, 0x80] 0;
    s.rd.pos.toNat + 32 ≤ s.rd.cap.toNat ∧ s.plat.admitsAll (s.inSpan 32) = true ∧
      ∀ j, j < 32 → s.mem.bit s.rd.base.toNat (s.rd.pos.toNat + j) = false := by decide

/-- The first clause: V48, 31 zero bits, and no bit at all. -/
theorem test_witness_CutOffCodesRaise_zeros :
    ∀ s ∈ [reader [0x00] 0, reader [0, 0, 0, 0] 1, reader [] 0],
      s.rd.cap.toNat - s.rd.pos.toNat < 32 ∧
      s.plat.admitsAll (s.inSpan (s.rd.cap.toNat - s.rd.pos.toNat)) = true ∧
      ∀ j, j < s.rd.cap.toNat - s.rd.pos.toNat →
        s.mem.bit s.rd.base.toNat (s.rd.pos.toNat + j) = false := by decide

/-- The second clause: V47, k = 7, and the shortest code that can be cut off in its suffix, k = 1. -/
theorem test_witness_CutOffCodesRaise_suffix :
    ∀ sk ∈ [(reader [0x01] 0, 7), (reader [0x01] 6, 1)],
      sk.2 < 32 ∧ sk.1.rd.pos.toNat + sk.2 + 1 ≤ sk.1.rd.cap.toNat ∧
      (∀ j, j < sk.2 → sk.1.mem.bit sk.1.rd.base.toNat (sk.1.rd.pos.toNat + j) = false) ∧
      sk.1.mem.bit sk.1.rd.base.toNat (sk.1.rd.pos.toNat + sk.2) = true ∧
      sk.1.rd.cap.toNat < sk.1.rd.pos.toNat + 2 * sk.2 + 1 ∧
      sk.1.plat.admitsAll (sk.1.inSpan (sk.1.rd.cap.toNat - sk.1.rd.pos.toNat)) = true := by decide

/-- Only the first n bytes of the reader's buffer are admitted. -/
def holedAfter (n : Nat) (s : State) : State :=
  { s with plat := { regBase := 0, regions := [{ start := 0x1000, len := n }] } }

/-- The third clause: the first suffix bit is not admitted, in a code that would end inside the capacity and in one
that would run past it; and the last suffix bit. R266 gives BUS_ERROR for each. -/
theorem test_witness_CutOffCodesRaise_suffixBus :
    ∀ skj ∈ [(holedAfter 1 (reader [0x01, 0] 0), 7, 0), (holedAfter 2 (reader [0, 0x01, 0] 0), 15, 0),
        (holedAfter 1 (reader [0x04, 0] 2), 3, 2)],
      skj.2.1 < 32 ∧ skj.1.rd.pos.toNat + skj.2.1 + 1 ≤ skj.1.rd.cap.toNat ∧
      (∀ j, j < skj.2.1 → skj.1.mem.bit skj.1.rd.base.toNat (skj.1.rd.pos.toNat + j) = false) ∧
      skj.1.mem.bit skj.1.rd.base.toNat (skj.1.rd.pos.toNat + skj.2.1) = true ∧
      skj.2.2 < skj.2.1 ∧
      skj.1.rd.pos.toNat + skj.2.1 + 1 + skj.2.2 + 1 ≤ skj.1.rd.cap.toNat ∧
      skj.1.plat.admitsAll (skj.1.inSpan (skj.2.1 + 1 + skj.2.2)) = true ∧
      skj.1.plat.admits
        (skj.1.rd.base.toNat + (skj.1.rd.pos.toNat + skj.2.1 + 1 + skj.2.2) / 8) = false ∧
      answers (exec .rdUe skj.1) (raised .busError 0x62 skj.1) = true := by decide

/-- The fourth clause: the first bit is not admitted. -/
theorem test_witness_CutOffCodesRaise_bus :
    let s := holed (reader [0x80] 0);
    s.rd.pos.toNat + 0 + 1 ≤ s.rd.cap.toNat ∧
      (∀ j, j < 0 → s.mem.bit s.rd.base.toNat (s.rd.pos.toNat + j) = false) ∧
      s.plat.admitsAll (s.inSpan 0) = true ∧
      s.plat.admits (s.rd.base.toNat + (s.rd.pos.toNat + 0) / 8) = false := by decide

/-- Both clauses, and both parities of the value. -/
theorem test_witness_RdSeMapsTheUnsignedValue :
    answers (exec .rdUe (reader [] 0)) (fun t => t.status.code != .ok) = true ∧
    answers (exec .rdUe (reader [0x40] 0)) (fun t => t.status.code == .ok && t.result == 1) = true ∧
    answers (exec .rdUe (reader [0x60] 0)) (fun t => t.status.code == .ok && t.result == 2) = true := by
  decide

/-- V42 and V43: both ends of the range. -/
theorem test_witness_RdSeDecodesEveryCode :
    (let s := reader [0, 0, 0, 1, 0xFF, 0xFF, 0xFF, 0xFE] 0;
      CodeAt s.mem s.rd.base.toNat s.rd.pos.toNat (seCodeNum (-(2 ^ 31 - 1))) ∧
      s.rd.pos.toNat + codeBits (seCodeNum (-(2 ^ 31 - 1))) ≤ s.rd.cap.toNat ∧
      s.plat.admitsAll (s.inSpan (codeBits (seCodeNum (-(2 ^ 31 - 1))))) = true) ∧
    (let s := reader [0, 0, 0, 1, 0xFF, 0xFF, 0xFF, 0xFC] 0;
      CodeAt s.mem s.rd.base.toNat s.rd.pos.toNat (seCodeNum (2 ^ 31 - 1)) ∧
      s.rd.pos.toNat + codeBits (seCodeNum (2 ^ 31 - 1)) ≤ s.rd.cap.toNat ∧
      s.plat.admitsAll (s.inSpan (codeBits (seCodeNum (2 ^ 31 - 1)))) = true) := by
  unfold CodeAt; decide

/-- V35, V32, and an emission that fills the buffer. -/
theorem test_witness_WrBitsEmitsTheLowBits :
    (writer 4 0 1 0).mem.wf = true ∧
    answers (exec (.wrBits 0) (writer 4 0 1 0)) (raised .illegalOperand 0x52 (writer 4 0 1 0)) = true ∧
    answers (exec (.wrBits 33) (writer 4 0 1 0)) (raised .illegalOperand 0x52 (writer 4 0 1 0)) = true ∧
    answers (exec (.wrBits 32) (writer 4 4 0x12345678 0))
      (raised .capacityError 0x32 (writer 4 4 0x12345678 0)) = true ∧
    answers (exec (.wrBits 1) (holed (writer 4 0 1 0)))
      (raised .busError 0x62 (holed (writer 4 0 1 0))) = true ∧
    answers (exec (.wrBits 32) (writer 4 0 0xDEADBEEF 0))
      (wroteTo [0xDE, 0xAD, 0xBE, 0xEF] 32 0) = true := by decide

/-- The state of the read: the one after the write, with the reader over the writer's buffer. -/
def readBack (s t : State) : State :=
  { t with rd := { base := s.wr.base, cap := s.wr.cap, pos := s.wr.pos } }

/-- S1: n = 7 and n = 32, and n = 1. -/
theorem test_witness_WrittenFieldIsReadBack :
    ∀ nr ∈ [(1, 0xFFFFFF94, 0), (7, 0xFFFFFF94, 0x14),
        (32, 0xDEADBEEF, 0xDEADBEEF)],
      let s := writer 8 3 (BitVec.ofNat 32 nr.2.1) 0;
      s.mem.wf = true ∧ answers (exec (.wrBits (BitVec.ofNat 6 nr.1)) s) (fun t =>
        t.status.code == .ok && decide ((readBack s t).plat = s.plat)
          && decide (s.wr.pos.toNat + nr.1 ≤ s.wr.cap.toNat)
          && answers (exec (.rdBits (BitVec.ofNat 6 nr.1)) (readBack s t))
            (fun r => r.result.toNat == nr.2.2)) = true := by
  decide

/-- What wr.ue leaves between its two WR.BITS commands: the second operand, and other fields changed. -/
def nextOperand (v : Nat) (t : State) : State :=
  { t with opa := BitVec.ofNat 32 (v + 1), latA := BitVec.ofNat 32 (v + 1), cmd := 0x11000001
           env := { t.env with seen := [7] } }

/-- S3 and S4: the values 0, 2 (that is -1) and 127, and the largest one. -/
theorem test_witness_WrittenCodeIsReadBack :
    (let s := writer 8 0 0 0;
      codeZeros 0 = 0 ∧ answers (exec (.wrBits 1) (nextOperand 0 s)) (fun t =>
        t.status.code == .ok && answers (exec .rdUe (readBack s t)) (readTo .ok 0 1)) = true) ∧
    (∀ v ∈ [2, 127, 2 ^ 32 - 2],
      let s := writer 8 0 0 0;
      s.mem.wf = true ∧ s.latA = 0 ∧ codeZeros v ≠ 0 ∧
      s.wr.pos.toNat + codeBits v ≤ s.wr.cap.toNat ∧
      answers (exec (.wrBits (BitVec.ofNat 6 (codeZeros v))) s) (fun t =>
        t.status.code == .ok &&
        answers (exec (.wrBits (BitVec.ofNat 6 (codeZeros v + 1))) (nextOperand v t)) (fun s2 =>
            s2.status.code == .ok && decide ((readBack s s2).plat = s.plat) &&
            answers (exec .rdUe (readBack s s2)) (readTo .ok (BitVec.ofNat 32 v) (codeBits v)))) = true) := by
  decide

/-- S4: the code value of -1 is 2, and both ends of the signed range. -/
theorem test_witness_WrittenCodeIsReadBack_signed : seCodeNum (-1) = 2 ∧ seCodeNum 64 = 127 ∧
    seCodeNum (-(2 ^ 31 - 1)) = 2 ^ 32 - 2 := by decide

/-- V58, a hole, V54 with its start code at the very end of the range, and V56. -/
theorem test_witness_ScFindFindsTheFirst :
    (let s := { State.reset with latA := 0xFFFFFFF0, latB := 0x10 };
      answers (exec .scFind s) (raised .illegalOperand 0x52 s) = true) ∧
    (let s := holed (sourced [0, 0, 1] State.reset);
      answers (exec .scFind s) (raised .busError 0x62 s) = true) ∧
    (let s := sourced [0, 0, 0, 1] State.reset;
      FirstStartCode s.mem s.latA.toNat (s.latA.toNat + s.latB.toNat) 0x3001) ∧
    (let s := sourced [0, 0] State.reset;
      NoStartCode s.mem s.latA.toNat (s.latA.toNat + s.latB.toNat)) :=
  ⟨by decide, by decide, findSC_eq_some_iff.mp (by decide), findSC_eq_none_iff.mp (by decide)⟩

theorem test_witness_SplInitStartsTheSplit :
    (let s := { State.reset with latA := 0xFFFFFFF0, latB := 0x10 };
      answers (exec .splInit s) (raised .illegalOperand 0x52 s) = true) ∧
    (let s := holed (sourced [0, 0, 1] State.reset);
      answers (exec .splInit s) (raised .busError 0x62 s) = true) ∧
    (let s := sourced [0, 0, 1] State.reset;
      FirstStartCode s.mem s.latA.toNat (s.latA.toNat + s.latB.toNat) 0x3000) ∧
    (let s := sourced [] State.reset;
      NoStartCode s.mem s.latA.toNat (s.latA.toNat + s.latB.toNat)) :=
  ⟨by decide, by decide, findSC_eq_some_iff.mp (by decide), findSC_eq_none_iff.mp (by decide)⟩

/-- Inactive; a hole; no unit left; a unit with a start code after it, and one without. -/
theorem test_witness_SplNextReturnsTheNextUnit :
    (splitting frame 0x300D 0x300D false).spl.active = false ∧
    (let s := holed (splitting frame 0x3004 0x300D true);
      answers (exec .splNext s) (raised .busError 0x62 s) = true) ∧
    unitsLeft (splitting [0, 0, 1, 0, 0] 0x3003 0x3005 true) = [] ∧
    (let s := splitting frame 0x3004 0x300D true;
      unitsLeft s = [(0x3004, 3), (0x300B, 2)] ∧ FirstStartCode s.mem 0x3004 0x300D 0x3008) ∧
    (let s := splitting frame 0x300B 0x300D true;
      unitsLeft s = [(0x300B, 2)] ∧ NoStartCode s.mem 0x300B 0x300D) :=
  ⟨rfl, by decide, by decide, ⟨by decide, findSC_eq_some_iff (n := 9).mp (by decide)⟩,
    by decide, findSC_eq_none_iff (n := 2).mp (by decide)⟩

/-- The state a command leaves. -/
def afterwards (i : Instr) (s : State) : State :=
  match exec i s with
  | .next t => t
  | .fault _ => s
  | .refused _ => s

/-- What may happen between two SPL.NEXT commands: other registers change, and memory outside the frame. -/
def meanwhile (t : State) : State :=
  { t with opa := 7, latA := 9, cmd := 0x22000000, mem := t.mem.write 0x9000 5
           env := { t.env with seen := [1] } }

/-- The states before the successive SPL.NEXT commands after SPL.INIT in s. -/
def beforeNext (s : State) : Nat → State
  | 0 => meanwhile (afterwards .splInit s)
  | j + 1 => meanwhile (afterwards .splNext (beforeNext s j))

/-- S5: two units, and V63: none. Memory and the writer change between the commands. -/
theorem test_witness_IteratorReturnsTheSplit :
    (let s := sourced frame State.reset;
      (s.mem.split s.latA.toNat (s.latA.toNat + s.latB.toNat) = [(0x3004, 3), (0x300B, 2)] ∧
        (afterwards .splInit s).status.code = .ok) ∧
      (∀ j, j < 3 → (beforeNext s j).plat = s.plat ∧
        (∀ x, x < s.latB.toNat → (beforeNext s j).mem.read (0x3000 + x) = s.mem.read (0x3000 + x)) ∧
        (beforeNext s (j + 1)).spl = (afterwards .splNext (beforeNext s j)).spl) ∧
      answers (exec .splNext (beforeNext s 0)) (fun t => t.status.code == .ok &&
        decide (t.nal = { addr := 0x3004, len := 3, unitType := 7 })) = true ∧
      answers (exec .splNext (beforeNext s 1)) (fun t => t.status.code == .ok &&
        decide (t.nal = { addr := 0x300B, len := 2, unitType := 8 })) = true ∧
      answers (exec .splNext (beforeNext s 2)) (fun t => t.status.code == .notFound) = true) ∧
    (let s := sourced [0, 0, 2] State.reset;
      s.mem.split s.latA.toNat (s.latA.toNat + s.latB.toNat) = [] ∧
      (afterwards .splInit s).status.code = .notFound ∧
      answers (exec .splNext (beforeNext s 0)) (fun t => t.status.code == .notFound) = true) := by decide

/-- V74, V75, V70, V76; the range check; a hole. -/
theorem test_witness_RbspExtractEmitsTheStrippedPayload :
    (let s := sourced [] (writer 4 0 0 0);
      s.mem.wf = true ∧ answers (exec .rbspExtract s) (raised .decodeError 0x14 s) = true) ∧
    (let s := sourced [0x67, 0, 0, 3, 1] (writer 2 0 0 0);
      s.mem.wf = true ∧ answers (exec .rbspExtract s) (raised .capacityError 0x32 s) = true) ∧
    (let s := sourced [0x67] (writer 4 0 0 0);
      answers (exec .rbspExtract s) (wroteTo [] 0 0) = true) ∧
    (let s := sourced [0x67, 0, 0, 3, 1] (writer 3 0 0 0);
      answers (exec .rbspExtract s) (wroteTo [0, 0, 1] 24 3) = true) ∧
    (let s := writer 4 0 0xFFFFFFFF 1;
      answers (exec .rbspExtract s) (raised .illegalOperand 0x52 s) = true) ∧
    (let s := holed (sourced [0x67] (writer 4 0 0 0));
      answers (exec .rbspExtract s) (raised .busError 0x62 s) = true) := by decide

theorem test_witness_FlvFhdrEmitsTheFileHeader :
    (writer 12 0 0 0).mem.wf = true ∧
    answers (exec (.flvFhdr true true) (writer 12 0 0 0))
      (raised .capacityError 0x32 (writer 12 0 0 0)) = true ∧
    answers (exec (.flvFhdr true true) (writer 13 0 0 0)) (fun t => t.status.code == .ok) = true := by decide

/-- V85, V86, V87: both ends of the sizes, and a type that is none. -/
theorem test_witness_FlvThdrEmitsTheTagHeader :
    (writer 11 0 0xFFFFFF 0xFFFFFFFF).mem.wf = true ∧
    answers (exec (.flvThdr 8) (writer 11 0 0xFFFFFF 0xFFFFFFFF))
      (wroteTo [0x08, 0xFF, 0xFF, 0xFF, 0xFF, 0xFF, 0xFF, 0xFF, 0, 0, 0] 88 0) = true ∧
    answers (exec (.flvThdr 10) (writer 11 0 4 0)) (raised .illegalOperand 0x52 (writer 11 0 4 0)) = true ∧
    answers (exec (.flvThdr 8) (writer 11 0 0x1000000 0))
      (raised .illegalOperand 0x52 (writer 11 0 0x1000000 0)) = true := by decide

/-- V88, V90. -/
theorem test_witness_FlvAhdrEmitsTheAudioHeader :
    (writer 2 0 0 0).mem.wf = true ∧
    answers (exec (.flvAhdr 0) (writer 2 0 0 0)) (wroteTo [0xAF, 0x00] 16 0) = true ∧
    answers (exec (.flvAhdr 2) (writer 2 0 0 0)) (raised .illegalOperand 0x52 (writer 2 0 0 0)) = true := by
  decide

/-- Both ends of the composition time, one past each, and the packet types at the ends of their range. -/
theorem test_witness_FlvVhdrEmitsTheVideoHeader :
    (writer 5 0 0 0).mem.wf = true ∧
    (∀ a ∈ [0x7FFFFF, 0xFF800000],
      answers (exec (.flvVhdr 1 1) (writer 5 0 (BitVec.ofNat 32 a) 0))
        (fun t => t.status.code == .ok) = true) ∧
    (∀ a ∈ [0x800000, 0xFF7FFFFF],
      answers (exec (.flvVhdr 1 1) (writer 5 0 (BitVec.ofNat 32 a) 0))
        (raised .illegalOperand 0x52 (writer 5 0 (BitVec.ofNat 32 a) 0)) = true) ∧
    answers (exec (.flvVhdr 2 2) (writer 5 0 0x800000 0)) (wroteTo [0x27, 2, 0, 0, 0] 40 0) = true ∧
    answers (exec (.flvVhdr 2 3) (writer 5 0 0 0)) (raised .illegalOperand 0x52 (writer 5 0 0 0)) = true := by
  decide

/-- V113, V108, and a hole. -/
theorem test_witness_FlvPayloadCopiesTheBytes :
    (let s := writer 4 0 0xFFFFFFFF 1;
      s.mem.wf = true ∧ answers (exec .flvPayload s) (raised .illegalOperand 0x52 s) = true) ∧
    (let s := sourced [] (writer 4 0 0 0);
      answers (exec .flvPayload s) (wroteTo [] 0 0) = true) ∧
    (let s := holed (sourced [1] (writer 4 0 0 0));
      answers (exec .flvPayload s) (raised .busError 0x62 s) = true) := by decide

/-- V106, V112, and a hole. -/
theorem test_witness_FlvPnalPrefixesTheLength :
    (let s := sourced [] (writer 4 0 0 0);
      s.mem.wf = true ∧ answers (exec .flvPnal s) (wroteTo [0, 0, 0, 0] 32 4) = true) ∧
    (let s := sourced [0x65, 0x88, 0x84] (writer 6 0 0 0);
      answers (exec .flvPnal s) (raised .capacityError 0x32 s) = true) ∧
    (let s := holed (sourced [1] (writer 5 0 0 0));
      answers (exec .flvPnal s) (raised .busError 0x62 s) = true) := by decide

/-- V110, V111, and a hole. -/
theorem test_witness_FlvPadtsStripsSevenBytes :
    (let s := sourced [0xFF, 0xF1, 0x50, 0x80, 0x01, 0x3F, 0xFC] (writer 4 0 0 0);
      s.mem.wf = true ∧ answers (exec .flvPadts s) (wroteTo [] 0 0) = true) ∧
    (let s := sourced [0xFF, 0xF1, 0x50, 0x80, 0x01, 0x3F] (writer 4 0 0 0);
      answers (exec .flvPadts s) (raised .decodeError 0x14 s) = true) ∧
    (let s := holed (sourced [0xFF, 0xF1, 0x50, 0x80, 0x01, 0x3F, 0xFC] (writer 4 0 0 0));
      answers (exec .flvPadts s) (raised .busError 0x62 s) = true) := by decide

/-- Both ends of dataSize, and one past. -/
theorem test_witness_FlvTrailerEmitsTheTagSize :
    (writer 4 0 0 0).mem.wf = true ∧
    answers (exec .flvTrailer (writer 4 0 0 0)) (wroteTo [0, 0, 0, 11] 32 0) = true ∧
    answers (exec .flvTrailer (writer 4 0 0xFFFFFF 0)) (wroteTo [1, 0, 0, 10] 32 0) = true ∧
    answers (exec .flvTrailer (writer 4 0 0x1000000 0))
      (raised .illegalOperand 0x52 (writer 4 0 0x1000000 0)) = true := by decide

/-- The smallest and the largest tag: a header, then a trailer as many bytes further on. -/
theorem test_witness_TagOccupiesItsSize :
    ∀ d ∈ [0, 2 ^ 24 - 1],
      let s := writer (2 ^ 25) 0 (BitVec.ofNat 32 d) 0;
      answers (exec (.flvThdr 9) s) (fun t =>
        t.status.code == .ok && t.mem.wf &&
        answers (exec .flvTrailer
          { t with wr := { t.wr with pos := BitVec.ofNat 32 (t.wr.pos.toNat + 8 * d) } }) (fun v =>
            v.status.code == .ok && v.wr.pos.toNat == 8 * (11 + d + 4))) = true := by decide

/-! ## The host -/

/-- V116, V117, and an acceptance. -/
theorem test_witness_CmdWriteIsAcceptedDroppedOrIgnored :
    (let s := pending 0x05000000 State.reset;
      answers (hostAct (.regWrite 0x08 4 0x03000000) s) (fun t =>
        decide (t = { s with status := { s.status with ovr := true } })) = true) ∧
    (let s := takeError .illegalCommand State.reset;
      answers (hostAct (.regWrite 0x08 4 0x03000000) s) (fun t => decide (t = s)) = true) ∧
    (let s := { State.reset with opa := 5, opb := 6 };
      answers (hostAct (.regWrite 0x08 4 0x03000000) s) (fun t =>
        t.status.busy && t.cmd == 0x03000000 && t.latA == 5 && t.latB == 6) = true) := by decide

/-- V114 and V115. -/
theorem test_statusWrite :
    (let s := takeError .decodeError State.reset;
      answers (hostAct (.regWrite 0x04 4 4) s) (fun t => t.status.word == 0x10) = true ∧
      answers (hostAct (.regWrite 0x04 4 3) s) (fun t => decide (t = s)) = true) := by decide

/-- The first and the last offset, OPA, OPB, a read-only register and a reserved offset. -/
theorem test_witness_RegisterWritesStoreOrAreIgnored :
    ∀ off ∈ [0x0C, 0x10, 0x14, 0x44, 0x48, 0xFC],
      (0x0C ≤ off ∧ off < 256 ∧ off % 4 = 0) ∧
      answers (hostAct (.regWrite off 4 7) State.reset) (fun t =>
        (t.opa == if off = 0x0C then 7 else 0) && (t.opb == if off = 0x10 then 7 else 0)
          && t.result == 0) = true := by decide

/-- V120, the first reserved offset and the last; STATUS; SPL_ACTIVE. -/
theorem test_witness_RegisterReadsReturnTheMap :
    (∀ off ∈ [0x48, 0x80, 0xFC], (0x48 ≤ off ∧ off < 256 ∧ off % 4 = 0) ∧
      answers (hostAct (.regRead off 4) State.reset) (fun t => t.env.seen == [0]) = true) ∧
    answers (hostAct (.regRead 0x04 4) (takeError .busError State.reset)) (fun t =>
      t.env.seen == [0x62]) = true ∧
    answers (hostAct (.regRead 0x38 4) (splitting frame 0x3004 0x300D true)) (fun t =>
      t.env.seen == [1]) = true := by decide

/-- The wrong size, both sides of the window, and a misaligned address. -/
theorem test_witness_OddRegisterAccessIsRefused :
    let p := { State.reset with plat := { regBase := 0x100, regions := [] } };
    registerOffset p 0x100 2 = .error .registerAccessSize ∧
    registerOffset p 0xFF 4 = .error .outsideRegisterWindow ∧
    registerOffset p 0x200 4 = .error .outsideRegisterWindow ∧
    registerOffset p 0x101 4 = .error .registerMisaligned ∧
    registerOffset p 0x1FC 4 = .ok 0xFC := ⟨rfl, rfl, rfl, rfl, rfl⟩

/-- V118, V119, and a command that is abandoned. -/
theorem test_witness_SoftResetAbandonsThePendingCommand :
    (let s := takeError .capacityError { writer 4 16 1 0 with mem := [(0x6000, 0xA5)] };
      answers (hostAct (.regWrite 0 4 1) s) (fun t =>
        decide (t = { State.reset with mem := s.mem })) = true ∧
      answers (hostAct (.regWrite 0 4 0) s) (fun t => decide (t = s)) = true) ∧
    (let s := pending 0x11000008 (writer 4 8 1 0);
      s.status.busy = true ∧ s.pendingWrites.holds 0x6000 = false ∧
        s.pendingWrites.holds 0x6001 = true ∧ s.pendingWrites.holds 0x6002 = false) := by decide

/-- Both ends of the count, every packet and tag type, and for the commands with a source each clause at the
boundary of its length. -/
theorem test_witness_AfterResetCursorsAreEmpty :
    (let s := { State.reset with latA := 0xFFFFFF, latB := 1 };
      (s.rd = { base := 0, cap := 0, pos := 0 } ∧ s.wr = { base := 0, cap := 0, pos := 0 } ∧
        s.spl.active = false ∧ s.latA.toNat < 2 ^ 24) ∧
      (∀ n ∈ [1, 32],
        answers (exec (.rdBits (BitVec.ofNat 6 n)) s) (raised .decodeError 0x14 s) = true ∧
        answers (exec (.wrBits (BitVec.ofNat 6 n)) s) (raised .capacityError 0x32 s) = true) ∧
      answers (exec (.flvAhdr 1) s) (raised .capacityError 0x32 s) = true ∧
      answers (exec (.flvVhdr 0 2) s) (raised .capacityError 0x32 s) = true ∧
      answers (exec (.flvThdr 18) s) (raised .capacityError 0x32 s) = true) ∧
    (∀ a ∈ [0x7FFFFF, 0xFF800000],
      let s := { State.reset with latA := BitVec.ofNat 32 a };
      (-(2 ^ 23) ≤ s.latA.toInt ∧ s.latA.toInt ≤ 2 ^ 23 - 1) ∧
      answers (exec (.flvVhdr 1 1) s) (raised .capacityError 0x32 s) = true) ∧
    (∀ b ∈ [0, 1, 2, 7, 8],
      let s := { State.reset with latA := 0x3000, latB := BitVec.ofNat 32 b };
      s.latA.toNat + s.latB.toNat < 2 ^ 32 ∧ s.plat.admitsAll s.source = true ∧
      answers (exec .flvPayload s) (fun t =>
        if b = 0 then t.status.code == .ok else raised .capacityError 0x32 s t) = true ∧
      answers (exec .rbspExtract s) (fun t =>
        if b = 0 then raised .decodeError 0x14 s t
        else if b = 1 then t.status.code == .ok else raised .capacityError 0x32 s t) = true ∧
      answers (exec .flvPadts s) (fun t =>
        if b < 7 then raised .decodeError 0x14 s t
        else if b = 7 then t.status.code == .ok else raised .capacityError 0x32 s t) = true) := by decide

/-- P4: wr.ue 127 and wr.se -3 with their command words, and the two values with no expansion. -/
theorem test_pseudo_instructions :
    wrUe 0 127 = some [.regWrite 0x0C 4 0, .regWrite 0x08 4 0x11000007, .wait,
      .regWrite 0x0C 4 128, .regWrite 0x08 4 0x11000008, .wait] ∧
    wrSe 0 (-3) = some [.regWrite 0x0C 4 0, .regWrite 0x08 4 0x11000002, .wait,
      .regWrite 0x0C 4 7, .regWrite 0x08 4 0x11000003, .wait] ∧
    wrUe 0 (2 ^ 32 - 1) = none ∧ wrSe 0 (-2 ^ 31) = none := by decide

/-- Both clauses: a byte inside the access set of a pending command, and the next one. -/
theorem test_witness_HostBytesOutsideTheAccessSetAreUnaffected :
    let s := pending 0x11000008 (writer 4 0 1 0);
    s.status.busy = true ∧ s.plat.admits 0x6000 = true ∧ s.plat.admits 0x6001 = true ∧
      s.pendingTouches 0x6000 = true ∧ s.pendingTouches 0x6001 = false := by decide

/-- R82, R171: of a code of 32 zeros only the four bytes that hold them are in the access set, and of one whose
suffix meets a byte that is not admitted only the bytes before it. -/
theorem test_codeSpan_of_a_failing_code :
    (let s := pending 0x05000000 (reader [0, 0, 0, 0, 0x80, 0, 0, 0] 0);
      s.pendingTouches 0x1003 = true ∧ s.pendingTouches 0x1004 = false) ∧
    (let s := pending 0x06000000 (holedAfter 1 (reader [0x01, 0] 0));
      s.pendingTouches 0x1000 = true ∧ s.pendingTouches 0x1001 = false) := by decide

/-- All three clauses: an idle block with and without a host action, and a pending command with latency left. -/
theorem test_witness_StepIsTheHostsNextAction :
    (State.reset.status.busy = false ∧ State.reset.env.queue = []) ∧
    (let s := { State.reset with env := { State.reset.env with queue := [.regWrite 0x0C 4 7] } };
      s.status.busy = false ∧ answers (step s) (fun t => t.opa == 7 && t.env.queue == []) = true) ∧
    (let s := { pending 0x03000000 State.reset with
        env := { State.reset.env with queue := [.regWrite 0x0C 4 7], delay := 1 } };
      s.status.busy = true ∧ s.env.delay = 0 + 1 ∧
      answers (step s) (fun t =>
        t.opa == 7 && t.status.busy && t.env.queue == [] && t.env.delay == 0) = true) := by decide

end Sys2Proof.Tests
end

section
/-! The performance of a command: what it leaves of STATUS, of the two cursors and of the splitter, each said
once over all twenty commands, and the bytes it writes. -/

namespace Sys2Proof.Machine

open Sys2Proof.Safety

/-! ## The end of a command -/

/-- Where a command ends with a next state, it has completed with an update, or raised. -/
theorem exec_next_cases {i : Instr} {s t : State} (h : exec i s = .next t) :
    (∃ c u, CommandEnding i s (.complete c u) ∧ t = finish c u) ∨
      (∃ c, CommandEnding i s (.raise c) ∧ t = takeError c s) := by
  obtain ⟨e, he, hend⟩ := exec_ending i s
  rw [he] at h
  obtain ⟨c, u, rfl, ht⟩ | ⟨c, rfl, ht⟩ := settle_next h
  · exact .inl ⟨c, u, hend, ht⟩
  · exact .inr ⟨c, hend, ht⟩

/-- Every command answers a next state (R260). -/
theorem exec_next (i : Instr) (s : State) : ∃ t, exec i s = .next t := by
  obtain ⟨e, he, -⟩ := exec_ending i s
  cases e with
  | complete c u => exact ⟨_, he⟩
  | raise c => exact ⟨_, he⟩

theorem complete_code {i : Instr} {s u : State} {c : Code} (h : CommandEnding i s (.complete c u)) :
    c = .ok ∨ c = .notFound := by
  cases h with
  | same _ hc => exact hc
  | splInit _ _ _ hc => exact hc
  | splNone => exact .inr rfl
  | _ => exact .inl rfl

theorem raise_code {i : Instr} {s : State} {c : Code} (h : CommandEnding i s (.raise c)) :
    c ≠ .ok ∧ c ≠ .notFound := by
  cases h with
  | raise _ hok hnf => exact ⟨hok, hnf⟩

/-- STATUS is written by the end of a command alone, not by its updates (R114). -/
theorem complete_status {i : Instr} {s u : State} {c : Code} (h : CommandEnding i s (.complete c u)) :
    u.status = s.status := by
  cases h <;> rfl

/-! ## STATUS -/

/-- STATUS goes from st to st' when a command is performed, whatever it ends with (R59, R262, R263). -/
structure StatusPerformed (st st' : Status) : Prop where
  busy : st'.busy = false
  ovr : st'.ovr = st.ovr
  halted : st'.halted = (st.halted || st'.code.fatal)
  derr : st'.derr = (st.derr || decide (st'.code = .decodeError))

theorem statusPerformed_errored (st : Status) (c : Code) : StatusPerformed st (st.errored c) where
  busy := rfl
  ovr := rfl
  halted := rfl
  derr := by cases c <;> rfl

theorem statusPerformed_completed (st : Status) {c : Code} (h : c = .ok ∨ c = .notFound) :
    StatusPerformed st (st.completed c) := by
  obtain rfl | rfl := h <;> exact ⟨rfl, rfl, (Bool.or_false _).symm, (Bool.or_false _).symm⟩

theorem exec_status {i : Instr} {s t : State} (h : exec i s = .next t) :
    StatusPerformed s.status t.status := by
  obtain ⟨c, u, hu, rfl⟩ | ⟨c, -, rfl⟩ := exec_next_cases h
  · rw [finish_status, complete_status hu]
    exact statusPerformed_completed _ (complete_code hu)
  · exact statusPerformed_errored _ c

/-- In a block that is not halted HALTED says after the performance whether its code is fatal (R262). -/
theorem StatusPerformed.halted_eq_fatal {st st' : Status} (h : StatusPerformed st st')
    (hst : st.halted = false) : st'.halted = st'.code.fatal := by
  rw [h.halted, hst, Bool.false_or]

/-! ## The cursors -/

/-- A bit position inside a capacity is a register value. -/
theorem toNat_ofNat_of_le {p : Nat} {cap : Word} (h : p ≤ cap.toNat) : (BitVec.ofNat 32 p).toNat = p := by
  rw [BitVec.toNat_ofNat, Nat.mod_eq_of_lt (h.trans_lt cap.isLt)]

/-- What a command can do to the reader: nothing, make a cursor (R140), or with OK move RD_POS forward inside
the capacity (R45). -/
theorem exec_rd_cases {i : Instr} {s t : State} (h : exec i s = .next t) :
    t.rd = s.rd ∨ i = .rdInit ∨
      (readsCursor i = true ∧ t.status.code = .ok ∧ ∃ p, s.rd.pos.toNat ≤ p ∧ p ≤ s.rd.cap.toNat ∧
        t.rd = { s.rd with pos := BitVec.ofNat 32 p }) := by
  obtain ⟨c, u, hu, rfl⟩ | ⟨c, -, rfl⟩ := exec_next_cases h
  · cases hu with
    | rdInit hi => exact .inr (.inl hi)
    | deliver v p hr _ _ hp hcap => exact .inr (.inr ⟨hr, rfl, p, hp, hcap, rfl⟩)
    | skip p hr _ hp hcap => exact .inr (.inr ⟨hr, rfl, p, hp, hcap, rfl⟩)
    | _ => exact .inl rfl
  · exact .inl rfl

/-- What a command can do to the writer: nothing, make a cursor at position 0 (R150), or with OK emit n bits
that fit the capacity, into admitted bytes (R49, R158). -/
theorem exec_wr_cases {i : Instr} {s t : State} (h : exec i s = .next t) :
    t.wr = s.wr ∨ (i = .wrInit ∧ t.wr.pos = 0) ∨
      (emitsBits i = true ∧ t.status.code = .ok ∧ ∃ n, s.wr.pos.toNat + n ≤ s.wr.cap.toNat ∧
        s.plat.admitsAll (s.outSpan n) = true ∧
        t.wr = { s.wr with pos := BitVec.ofNat 32 (s.wr.pos.toNat + n) }) := by
  obtain ⟨c, u, hu, rfl⟩ | ⟨c, -, rfl⟩ := exec_next_cases h
  · cases hu with
    | wrInit hi => exact .inr (.inl ⟨hi, rfl⟩)
    | emit bits r he _ _ hcap ha => exact .inr (.inr ⟨he, rfl, _, hcap, ha, rfl⟩)
    | _ => exact .inl rfl
  · exact .inl rfl

/-! ## The bytes a command writes -/

theorem bitsEmitted_eq {i : Instr} {s t : State} (h : exec i s = .next t) :
    bitsEmitted i s = t.wr.pos.toNat - s.wr.pos.toNat := by
  rw [bitsEmitted, h]

theorem admitsAll_outSpan_zero (s : State) : s.plat.admitsAll (s.outSpan 0) = true := by
  simp [State.outSpan, bitSpan, Platform.admitsAll]

/-- A command writes admitted bytes only: one that would raise writes none (R82, R158). -/
theorem writeSet_admitted (i : Instr) (s : State) : s.plat.admitsAll (writeSet i s) = true := by
  obtain ⟨t, h⟩ := exec_next i s
  rw [writeSet, bitsEmitted_eq h]
  obtain hwr | ⟨-, hpos⟩ | ⟨-, -, n, hcap, ha, hwr⟩ := exec_wr_cases h
  · rw [hwr, Nat.sub_self]
    exact admitsAll_outSpan_zero s
  · rw [hpos, show (0 : Word).toNat = 0 from rfl, Nat.zero_sub]
    exact admitsAll_outSpan_zero s
  · rw [hwr, toNat_ofNat_of_le hcap, Nat.add_sub_cancel_left]
    exact ha

theorem pendingWrites_admitted (s : State) : s.plat.admitsAll s.pendingWrites = true := by
  unfold State.pendingWrites
  split
  · exact writeSet_admitted _ s
  · rfl
  · rfl

/-- Admitted bytes are addresses of buffer memory (R80, R81). -/
theorem admitsAll_fits {p : Platform} {r : Region} (h : p.admitsAll r = true) :
    r.len = 0 ∨ r.start + r.len ≤ Config.addrLimit := by
  by_cases h0 : r.len = 0
  · exact .inl h0
  · have hlast := Platform.admits_lt
      (Platform.admitsAll_iff.mp h (r.start + r.len - 1) (by omega) (by omega))
    exact .inr (by omega)

/-- Free values change memory and the count of the values drawn, nothing else (R291, R302). -/
theorem freeBytes_eq (a n : Nat) (s : State) :
    freeBytes a n s = { s with
      mem := (freeBytes a n s).mem
      env := { s.env with drawn := s.env.drawn + n } } := by
  induction n generalizing a s with
  | zero => rfl
  | succ n ih =>
    rw [freeBytes, ih]
    simp only [Nat.add_assoc, Nat.add_comm 1 n]

@[simp] theorem freeBytes_env (a n : Nat) (s : State) :
    (freeBytes a n s).env = { s.env with drawn := s.env.drawn + n } := by
  rw [freeBytes_eq]

end Sys2Proof.Machine
end

section
/-! The step: the performance of the pending word, and the block's step and the host's, by cases. -/

namespace Sys2Proof.Machine

open Sys2Proof.Safety

/-- What the performance of the pending word can do: end at once for a word that is no command (R123, R124),
perform the command (R114), or perform it and give the bytes it wrote free values after a race (R302). -/
theorem perform_next_cases {s t : State} (h : perform s = .next t) :
    (∃ c, t = takeError c s) ∨ (∃ i, exec i s = .next t) ∨
      ∃ i u, exec i s = .next u ∧
        t = { freeBytes (writeSet i s).start (writeSet i s).len u with
          env := { (freeBytes (writeSet i s).start (writeSet i s).len u).env with raced := false } } := by
  unfold perform at h
  split at h
  · exact .inl ⟨.illegalCommand, by simpa using h.symm⟩
  · exact .inl ⟨.illegalOperand, by simpa using h.symm⟩
  · rename_i i _
    split at h
    · obtain ⟨u, hu⟩ := exec_next i s
      rw [hu] at h
      exact .inr (.inr ⟨i, u, hu, by simpa [settleRace] using h.symm⟩)
    · exact .inr (.inl ⟨i, h⟩)

/-- The performance of the pending word always answers a next state (R260). -/
theorem perform_next (s : State) : ∃ t, perform s = .next t := by
  unfold perform
  split
  · exact ⟨_, rfl⟩
  · exact ⟨_, rfl⟩
  · rename_i i _
    obtain ⟨u, hu⟩ := exec_next i s
    rw [hu]
    split
    · exact ⟨_, rfl⟩
    · exact ⟨_, rfl⟩

theorem perform_status {s t : State} (h : perform s = .next t) : StatusPerformed s.status t.status := by
  obtain ⟨c, rfl⟩ | ⟨i, hi⟩ | ⟨i, u, hu, rfl⟩ := perform_next_cases h
  · exact statusPerformed_errored _ c
  · exact exec_status hi
  · simpa using exec_status hu

/-- What a step can be: nothing to do, the block's performance of the pending word, or an action of the host,
before which only the model's own fields have changed (R30, R310). -/
theorem step_next_cases {s t : State} (h : step s = .next t) :
    t = s ∨ (s.status.busy = true ∧ perform s = .next t) ∨
      ∃ act e, hostAct act { s with env := e } = .next t := by
  unfold step at h
  split at h
  · split at h
    · exact .inr (.inl ⟨by assumption, h⟩)
    · exact .inl (by simpa using h.symm)
  · split at h
    · split at h
      · exact .inr (.inl ⟨by assumption, h⟩)
      · exact .inr (.inr ⟨_, _, h⟩)
    · exact .inr (.inr ⟨_, _, h⟩)

end Sys2Proof.Machine
end

section
/-! The invariant: each update of the state keeps it, hence the end of a command, a performance, an action of the
host and a step. -/

namespace Sys2Proof.Machine

open Sys2Proof.Safety

/-! ## Updates of the state -/

theorem inv_withEnv {s : State} (h : Inv s) (e : Env) : Inv { s with env := e } := { h with }

theorem inv_withMem {s : State} (h : Inv s) {m : Memory} (hm : m.wf = true) : Inv { s with mem := m } :=
  { h with mem := hm }

theorem inv_withStatus {s : State} (h : Inv s) {st : Status} (hh : st.halted = st.code.fatal)
    (hb : st.busy = true → st.halted = false) : Inv { s with status := st } :=
  { h with halted := hh, busy := hb }

/-- The STATUS a performance leaves in a block that is not halted keeps the invariant. -/
theorem inv_withStatusPerformed {s : State} (h : Inv s) {st st' : Status} (hst : st.halted = false)
    (hp : StatusPerformed st st') : Inv { s with status := st' } :=
  inv_withStatus h (hp.halted_eq_fatal hst) (by simp [hp.busy])

theorem inv_freeBytes {s : State} (h : Inv s) {r : Region}
    (hr : r.len = 0 ∨ r.start + r.len ≤ Config.addrLimit) : Inv (freeBytes r.start r.len s) := by
  rw [freeBytes_eq]
  exact inv_withEnv (inv_withMem h (freeBytes_wf h.mem hr)) _

theorem cursorInv_zero : CursorInv { base := 0, cap := 0, pos := 0 } where
  inside := by decide
  whole := by decide
  fits := by decide

/-- The registers a reset leaves meet the invariant (R290). -/
theorem inv_clearRegisters {s : State} (hm : s.mem.wf = true) : Inv (clearRegisters s) where
  mem := hm
  rd := cursorInv_zero
  wr := cursorInv_zero
  splIn := by simp
  splDone := by simp
  nal := by simp
  halted := by simp [Status.zero, Code.fatal]
  busy := by simp [Status.zero]

/-! ## The updates of a command -/

/-- The cursor over B bytes at A that the INIT commands make (R140, R150). -/
theorem cursorInv_new {s : State} (hB : s.opndB ≤ Config.bufMaxBytes)
    (hA : s.opndA + s.opndB < Config.addrLimit) :
    CursorInv { base := s.latA, cap := BitVec.ofNat 32 (8 * s.opndB), pos := 0 } := by
  simp only [Config.bufMaxBytes, Config.addrLimit] at hB hA
  have hcap : (BitVec.ofNat 32 (8 * s.opndB)).toNat = 8 * s.opndB := by
    rw [BitVec.toNat_ofNat]
    omega
  constructor
  · exact Nat.zero_le _
  · show (BitVec.ofNat 32 (8 * s.opndB)).toNat % 8 = 0
    omega
  · show s.opndA + (BitVec.ofNat 32 (8 * s.opndB)).toNat / 8 < 2 ^ 32
    omega

/-- A cursor that moves inside its capacity keeps the invariant (R45, R49). -/
theorem cursorInv_move {c : Cursor} (h : CursorInv c) {p : Nat} (hp : p ≤ c.cap.toNat) :
    CursorInv { c with pos := BitVec.ofNat 32 p } :=
  { h with inside := by simpa [toNat_ofNat_of_le hp] using hp }

/-- What a command has updated when it completes keeps the invariant. -/
theorem inv_complete {i : Instr} {s u : State} {c : Code} (h : Inv s)
    (hu : CommandEnding i s (.complete c u)) : Inv u := by
  cases hu with
  | same => exact h
  | rdInit _ hB hA => exact { h with rd := cursorInv_new hB hA }
  | wrInit _ hB hA => exact { h with wr := cursorInv_new hB hA }
  | deliver _ _ _ _ _ _ hcap => exact { h with rd := cursorInv_move h.rd hcap }
  | skip _ _ _ _ hcap => exact { h with rd := cursorInv_move h.rd hcap }
  | emit bits _ _ _ _ hcap ha =>
    have hm := Memory.wf_putBits h.mem fun _ hj => admitted_span_lt ha hj
    exact { h with mem := hm, wr := cursorInv_move h.wr hcap }
  | find => exact { h with }
  | splInit _ _ _ _ hin hdone => exact { h with splIn := hin, splDone := hdone }
  | splNone _ _ _ hin hdone => exact { h with splIn := hin h.splIn, splDone := hdone }
  | splSome _ _ _ _ hin hdone hlen =>
    exact { h with splIn := hin h.splIn, splDone := hdone, nal := fun h0 => absurd h0 hlen }

theorem inv_exec {i : Instr} {s t : State} (h : Inv s) (hs : s.status.halted = false)
    (ht : exec i s = .next t) : Inv t := by
  have hst := exec_status ht
  obtain ⟨c, u, hu, rfl⟩ | ⟨c, -, rfl⟩ := exec_next_cases ht
  · exact inv_withStatusPerformed (inv_complete h hu) hs hst
  · exact inv_withStatusPerformed h hs hst

/-! ## The step -/

/-- A performance in a block that is not halted keeps the invariant. -/
theorem inv_perform {s t : State} (h : Inv s) (hs : s.status.halted = false)
    (ht : perform s = .next t) : Inv t := by
  have hst := perform_status ht
  obtain ⟨c, rfl⟩ | ⟨i, hi⟩ | ⟨i, u, hu, rfl⟩ := perform_next_cases ht
  · exact inv_withStatusPerformed h hs hst
  · exact inv_exec h hs hi
  · exact inv_withEnv (inv_freeBytes (inv_exec h hs hu) (admitsAll_fits (writeSet_admitted i s))) _

theorem inv_softReset {s : State} (h : Inv s) : Inv (softReset s) := by
  unfold softReset
  split
  · exact inv_clearRegisters (freeBytes_wf h.mem (admitsAll_fits (pendingWrites_admitted s)))
  · exact inv_clearRegisters h.mem

/-- A write to CMD accepts a command in a block that is not halted only (R112). -/
theorem inv_issue {s : State} (h : Inv s) (w : Word) : Inv (issue w s) := by
  unfold issue
  split
  · exact h
  split
  · exact inv_withStatus h h.halted h.busy
  · rename_i hh _
    exact { h with busy := fun _ => by simpa using hh }

theorem inv_writeRegister {s : State} (h : Inv s) (off : Nat) (w : Word) :
    Inv (writeRegister off w s) := by
  unfold writeRegister
  split
  · split
    · exact inv_softReset h
    · exact h
  · exact inv_withStatus h h.halted h.busy
  · exact inv_issue h w
  · exact { h with }
  · exact { h with }
  · exact h

theorem inv_answer {s : State} (h : Inv s) (v : Word) : Inv (answer v s) := inv_withEnv h _

theorem inv_hostReadByte {s : State} (h : Inv s) (a : Nat) : Inv (hostReadByte a s) := by
  unfold hostReadByte
  split
  · exact inv_answer (inv_withEnv h _) _
  · exact inv_answer h _

theorem inv_hostWriteByte {s : State} (h : Inv s) {a : Nat} (ha : a < Config.addrLimit) (v : Byte) :
    Inv (hostWriteByte a v s) := by
  unfold hostWriteByte
  split
  · exact inv_withEnv (inv_freeBytes (r := { start := a, len := 1 }) h (.inr ha)) _
  · exact inv_withMem h (Memory.wf_write h.mem ha v)

/-- Every action of the host keeps the invariant. -/
theorem inv_hostAct {act : HostAction} {s t : State} (h : Inv s) (ht : hostAct act s = .next t) :
    Inv t := by
  cases act with
  | regRead addr size =>
    rw [hostAct] at ht
    cases hoff : registerOffset s addr size with
    | error r => simp [hoff] at ht
    | ok off =>
      obtain rfl : answer (readRegister off s) s = t := by simpa [hoff] using ht
      exact inv_answer h _
  | regWrite addr size w =>
    rw [hostAct] at ht
    cases hoff : registerOffset s addr size with
    | error r => simp [hoff] at ht
    | ok off =>
      obtain rfl : writeRegister off w s = t := by simpa [hoff] using ht
      exact inv_writeRegister h off w
  | memRead a =>
    rw [hostAct] at ht
    split at ht
    · obtain rfl : hostReadByte a s = t := by simpa using ht
      exact inv_hostReadByte h a
    · simp at ht
  | memWrite a v =>
    rw [hostAct] at ht
    split at ht
    · rename_i ha
      obtain rfl : hostWriteByte a v s = t := by simpa using ht
      exact inv_hostWriteByte h (Platform.admits_lt ha) v
    · simp at ht
  | wait =>
    rw [hostAct] at ht
    split at ht
    · obtain rfl : { s with env := { s.env with queue := .wait :: s.env.queue } } = t := by
        simpa using ht
      exact inv_withEnv h _
    · obtain rfl : s = t := by simpa using ht
      exact h
  | hardReset =>
    obtain rfl : hardReset s = t := by simpa [hostAct] using ht
    exact inv_clearRegisters h.mem

end Sys2Proof.Machine
end

section
/-! The host's register accesses: the window, the map, and what a write to each register does. -/

namespace Sys2Proof.Machine

/-- An aligned access of 4 bytes inside the window reaches its offset (R35). -/
theorem registerOffset_inside (s : State) {off : Nat} (hlt : off < 256) (h4 : off % 4 = 0) :
    registerOffset s (s.plat.regBase + off) 4 = .ok off := by
  have hin : ¬ (s.plat.regBase + off < s.plat.regBase ∨
      s.plat.regBase + Config.windowBytes ≤ s.plat.regBase + off) := by
    simp only [Config.windowBytes]
    omega
  rw [registerOffset, if_neg (by simp), if_neg hin, Nat.add_sub_cancel_left, if_neg (by simpa using h4)]

/-- Every other access is refused (R35, entry 14). -/
theorem registerOffset_odd {s : State} {a n : Nat}
    (h : n ≠ 4 ∨ a < s.plat.regBase ∨ s.plat.regBase + 256 ≤ a ∨ (a - s.plat.regBase) % 4 ≠ 0) :
    ∃ r, registerOffset s a n = .error r := by
  unfold registerOffset
  split
  · exact ⟨_, rfl⟩
  split
  · exact ⟨_, rfl⟩
  split
  · exact ⟨_, rfl⟩
  · simp only [Config.windowBytes] at *
    omega

theorem hostAct_regRead_inside (s : State) {off : Nat} (hlt : off < 256) (h4 : off % 4 = 0) :
    hostAct (.regRead (s.plat.regBase + off) 4) s = .next (answer (readRegister off s) s) := by
  simp only [hostAct, registerOffset_inside s hlt h4]

theorem hostAct_regWrite_inside (s : State) {off : Nat} (w : Word) (hlt : off < 256)
    (h4 : off % 4 = 0) :
    hostAct (.regWrite (s.plat.regBase + off) 4 w) s = .next (writeRegister off w s) := by
  simp only [hostAct, registerOffset_inside s hlt h4]

/-! ## The register map -/

/-- STATUS as a number: CODE from bit 4 on, then OVR, DERR, HALTED and BUSY (R39). -/
theorem Status.word_eq (st : Status) :
    st.word = BitVec.ofNat 32 (st.code.number.toNat * 16 + st.ovr.toNat * 8 + st.derr.toNat * 4
      + st.halted.toNat * 2 + st.busy.toNat) := by
  obtain ⟨busy, halted, derr, ovr, code⟩ := st
  cases busy <;> cases halted <;> cases derr <;> cases ovr <;> cases code <;> rfl

theorem Splitter.activeWord_eq (sp : Splitter) : sp.activeWord = if sp.active then 1 else 0 := by
  rw [Splitter.activeWord]
  cases sp.active <;> rfl

/-- The offsets of R32 that are not reserved, with the value each reads as. -/
def registerMap (s : State) : List (Nat × Word) :=
  [(0x00, 0), (0x04, BitVec.ofNat 32
      (s.status.code.number.toNat * 16 + s.status.ovr.toNat * 8 + s.status.derr.toNat * 4
        + s.status.halted.toNat * 2 + s.status.busy.toNat)),
    (0x08, s.cmd), (0x0C, s.opa), (0x10, s.opb), (0x14, s.result),
    (0x18, s.rd.base), (0x1C, s.rd.cap), (0x20, s.rd.pos),
    (0x24, s.wr.base), (0x28, s.wr.cap), (0x2C, s.wr.pos),
    (0x30, s.spl.cur), (0x34, s.spl.stop), (0x38, if s.spl.active then 1 else 0),
    (0x3C, s.nal.addr), (0x40, s.nal.len), (0x44, BitVec.ofNat 32 s.nal.unitType.toNat)]

/-- Every offset of the map is an aligned offset of the window, and reads as the map says. -/
theorem registerMap_reads (s : State) :
    ∀ x ∈ registerMap s, x.1 < 256 ∧ x.1 % 4 = 0 ∧ readRegister x.1 s = x.2 := by
  simp [registerMap, readRegister, Status.word_eq, Splitter.activeWord_eq]

/-- Past the map every offset is reserved and reads 0 (R37). -/
theorem readRegister_reserved (s : State) {off : Nat} (h : 0x48 ≤ off) : readRegister off s = 0 := by
  unfold readRegister
  split
  case h_18 => rfl
  all_goals omega

/-- From OPA on, only OPA and OPB are writable (R33, R37, R62). -/
theorem writeRegister_from_opa (s : State) {off : Nat} (w : Word) (h : 0x0C ≤ off) :
    writeRegister off w s =
      if off = 0x0C then { s with opa := w } else if off = 0x10 then { s with opb := w } else s := by
  unfold writeRegister
  split
  · omega
  · omega
  · omega
  · rfl
  · rfl
  · rename_i ha hb
    rw [if_neg ha, if_neg hb]

/-- A write to STATUS clears the sticky bits it names (R40). -/
theorem Status.written_eq (w : Word) (st : Status) :
    st.written w = { st with
      derr := if w.getLsbD 2 = true then false else st.derr
      ovr := if w.getLsbD 3 = true then false else st.ovr } := by
  have hclear : ∀ b c : Bool, (b && !c) = if c = true then false else b := by decide
  rw [Status.written, hclear, hclear]

theorem writeRegister_status (s : State) (w : Word) :
    writeRegister 0x04 w s = { s with status := s.status.written w } := rfl

theorem writeRegister_ctrl (s : State) (w : Word) :
    writeRegister 0 w s = if w.getLsbD 0 then softReset s else s := rfl

theorem softReset_queue (s : State) : (softReset s).env.queue = s.env.queue := by
  unfold softReset
  split <;> simp

/-- A soft reset changes memory at most where the abandoned command would have written (R291, entry 19). -/
theorem softReset_read (s : State) {a : Nat} (h : s.pendingWrites.holds a = false) :
    (softReset s).mem.read a = s.mem.read a := by
  have hout : ¬ (s.pendingWrites.start ≤ a ∧ a < s.pendingWrites.start + s.pendingWrites.len) := by
    simp [← Region.holds_iff, h]
  unfold softReset
  split
  · exact freeBytes_read s (by omega)
  · rfl

theorem softReset_idle {s : State} (h : s.status.busy = false) : softReset s = clearRegisters s := by
  simp [softReset, h]

/-- A soft reset leaves every register and latch at 0 (R60, R291). -/
theorem softReset_eq (s : State) :
    softReset s = { clearRegisters s with mem := (softReset s).mem, env := (softReset s).env } := by
  unfold softReset
  split <;> simp [clearRegisters]

end Sys2Proof.Machine
end

section
/-! The statements about the state (10_state.md): what a command, a step and a host access change. -/

namespace Sys2Proof.Proofs

open Sys2Proof.Machine Sys2Proof.Safety

/-! ## The invariant -/

/-- Settles O18: a step is idle, a performance or an action of the host, and each keeps the invariant. -/
theorem everyStepKeepsTheInvariant : Obligations.EveryStepKeepsTheInvariant := by
  intro s t h ht
  obtain rfl | ⟨hbusy, hp⟩ | ⟨act, e, ha⟩ := step_next_cases ht
  · exact h
  · exact inv_perform h (h.busy hbusy) hp
  · exact inv_hostAct (inv_withEnv h e) ha

/-! ## Every command -/

/-- Settles O9. -/
theorem statusAfterEveryPerformance : Obligations.StatusAfterEveryPerformance := by
  intro s
  obtain ⟨t, ht⟩ := perform_next s
  obtain ⟨hbusy, hovr, hhalted, hderr⟩ := perform_status ht
  exact ⟨t, ht, hbusy, hovr, hhalted, hderr⟩

/-- Settles O11: RESULT is an update of a reader command, an emission or SC.FIND. -/
theorem resultIsWrittenOnlyOnOk : Obligations.ResultIsWrittenOnlyOnOk := by
  intro i s t h hno
  obtain ⟨c, u, hu, rfl⟩ | ⟨c, -, rfl⟩ := exec_next_cases h
  · cases hu with
    | deliver _ _ _ hr => simp [hr] at hno
    | emit _ _ _ hr => exact hr.resolve_left (by simpa using hno)
    | find _ hi => simp [hi, writesResult] at hno
    | _ => rfl
  · rfl

/-- Settles O12: none of these registers is among the updates of a command. -/
theorem commandsKeepHostRegisters : Obligations.CommandsKeepHostRegisters := by
  intro i s t h
  obtain ⟨c, u, hu, rfl⟩ | ⟨c, -, rfl⟩ := exec_next_cases h
  · cases hu <;> exact ⟨rfl, rfl, rfl, rfl, rfl, rfl, rfl⟩
  · exact ⟨rfl, rfl, rfl, rfl, rfl, rfl, rfl⟩

/-- Settles O13. -/
theorem readerRegistersMoveForward : Obligations.ReaderRegistersMoveForward := by
  intro i s t h hi
  obtain hrd | hinit | ⟨hr, hok, p, hp, hcap, hrd⟩ := exec_rd_cases h
  · exact ⟨by rw [hrd], by rw [hrd], by rw [hrd], fun _ => hrd⟩
  · exact absurd hinit hi
  · rw [hrd, toNat_ofNat_of_le hcap]
    exact ⟨rfl, rfl, hp, fun hno => by simp [hr, hok] at hno⟩

/-- Settles O14. -/
theorem writerRegistersMoveForward : Obligations.WriterRegistersMoveForward := by
  intro i s t h hi
  obtain hwr | ⟨hinit, -⟩ | ⟨he, hok, n, hcap, -, hwr⟩ := exec_wr_cases h
  · exact ⟨by rw [hwr], by rw [hwr], by rw [hwr], fun _ => hwr⟩
  · exact absurd hinit hi
  · rw [hwr, toNat_ofNat_of_le hcap]
    exact ⟨rfl, rfl, Nat.le_add_right _ _, fun hno => by simp [he, hok] at hno⟩

/-- Settles O15: the splitter is an update of SPL.INIT and SPL.NEXT, the NAL registers one of SPL.NEXT when it
returns a unit. -/
theorem splitterRegistersHaveTheirWriters : Obligations.SplitterRegistersHaveTheirWriters := by
  intro i s t h
  obtain ⟨c, u, hu, rfl⟩ | ⟨c, -, rfl⟩ := exec_next_cases h
  · cases hu with
    | splInit _ _ hi => exact ⟨fun hn => absurd hi hn, fun hn => absurd hi hn, fun _ => rfl⟩
    | splNone _ hi hstop => exact ⟨fun _ hn => absurd hi hn, fun _ => hstop, fun _ => rfl⟩
    | splSome _ _ hi hstop =>
      exact ⟨fun _ hn => absurd hi hn, fun _ => hstop, fun hno => by simp [hi] at hno⟩
    | _ => exact ⟨fun _ _ => rfl, fun _ => rfl, fun _ => rfl⟩
  · exact ⟨fun _ _ => rfl, fun _ => rfl, fun _ => rfl⟩

/-! ## The host -/

/-- Settles O57. -/
theorem softResetAbandonsThePendingCommand : Obligations.SoftResetAbandonsThePendingCommand := by
  intro s w
  refine ⟨_, hostAct_regWrite_inside s (off := 0) w (by decide) rfl, ?_⟩
  rw [writeRegister_ctrl]
  cases w.getLsbD 0 with
  | false => rfl
  | true =>
    refine ⟨fun hidle => ?_, fun a => softReset_read s, softReset_queue s, softReset_eq s⟩
    show (softReset s).mem = s.mem
    rw [softReset_idle hidle, clearRegisters_mem]

/-- Settles O52. -/
theorem statusWriteClearsStickyBits : Obligations.StatusWriteClearsStickyBits := by
  intro s w
  rw [hostAct_regWrite_inside s w (by decide) rfl, writeRegister_status, Status.written_eq]

/-- Settles O53. -/
theorem registerWritesStoreOrAreIgnored : Obligations.RegisterWritesStoreOrAreIgnored := by
  intro s off w hopa hlt h4
  rw [hostAct_regWrite_inside s w hlt h4, writeRegister_from_opa s w hopa]

/-- Settles O54. -/
theorem registerReadsReturnTheMap : Obligations.RegisterReadsReturnTheMap := by
  intro s off v h
  have hread : off < 256 ∧ off % 4 = 0 ∧ readRegister off s = v := by
    obtain hmap | ⟨hge, hlt, h4, rfl⟩ := h
    · exact registerMap_reads s (off, v) hmap
    · exact ⟨hlt, h4, readRegister_reserved s hge⟩
  obtain ⟨hlt, h4, rfl⟩ := hread
  exact hostAct_regRead_inside s hlt h4

/-- Settles O55. -/
theorem oddRegisterAccessIsRefused : Obligations.OddRegisterAccessIsRefused := by
  intro s a n w h
  obtain ⟨r, hr⟩ := registerOffset_odd h
  exact ⟨r, by simp only [hostAct, hr], by simp only [hostAct, hr]⟩

/-- Settles O60. -/
theorem stepIsTheHostsNextAction : Obligations.StepIsTheHostsNextAction := by
  intro s
  refine ⟨fun hidle hq => ?_, fun act rest hq => ⟨fun hidle => ?_, fun d hbusy hd => ?_⟩⟩
  · simp [step, hq, hidle]
  · simp [step, hq, hidle]
  · simp [step, hq, hbusy, hd]

end Sys2Proof.Proofs
end

section
/-! What a command does to memory (20_memory.md R82, R102): nothing, or the bits it emits. -/

namespace Sys2Proof.Machine

open Sys2Proof.Safety

/-- What a command can do to memory: nothing, or put just as many bits at WR_POS as it is counted to emit
(R82, R158). -/
theorem exec_mem_cases {i : Instr} {s t : State} (h : exec i s = .next t) :
    t.mem = s.mem ∨
      (emitsBits i = true ∧ ∃ bits, bitsEmitted i s = bits.length ∧
        t.mem = s.mem.putBits s.wr.base.toNat s.wr.pos.toNat bits) := by
  have hcount := bitsEmitted_eq h
  obtain ⟨c, u, hu, rfl⟩ | ⟨c, -, rfl⟩ := exec_next_cases h
  · cases hu with
    | emit bits r he _ _ hcap =>
      simp only [finish_wr, toNat_ofNat_of_le hcap, Nat.add_sub_cancel_left] at hcount
      exact .inr ⟨he, bits, hcount, rfl⟩
    | _ => exact .inl rfl
  · exact .inl rfl

/-- Bits put at WR_POS leave every byte outside their span alone (R102). -/
theorem read_putBits_outSpan {s : State} {bits : List Bool} {a : Nat}
    (h : (s.outSpan bits.length).holds a = false) :
    (s.mem.putBits s.wr.base.toNat s.wr.pos.toNat bits).read a = s.mem.read a := by
  refine Memory.read_putBits fun j hj heq => ?_
  have hin : (s.outSpan bits.length).holds a = true := bitSpan_holds_iff.mpr ⟨j, hj, heq⟩
  simp [h] at hin

end Sys2Proof.Machine
end

section
/-! The statement about buffer memory (20_memory.md): what a command leaves of it. -/

namespace Sys2Proof.Proofs

open Sys2Proof.Machine Sys2Proof.Safety

/-- Settles O16: a command that changes memory is an emission, and its write set is the span of the bits it
puts. -/
theorem memoryOutsideTheWriteSetIsKept : Obligations.MemoryOutsideTheWriteSetIsKept := by
  intro i s t h
  obtain hmem | ⟨he, bits, hcount, hmem⟩ := exec_mem_cases h
  · rw [hmem]
    exact ⟨fun _ _ => rfl, fun _ _ => rfl⟩
  · refine ⟨fun hno => by simp [he] at hno, fun a ha => ?_⟩
    rw [writeSet, hcount] at ha
    rw [hmem]
    exact read_putBits_outSpan ha

end Sys2Proof.Proofs
end

section
/-! The decoder: what a word can stand for, said once over all opcodes (30_encoding.md R111, R115, R122 to R124),
and the round trip from a command. -/

namespace Sys2Proof

open Sys2Proof.Safety

/-! ## Reserved and free bits of an immediate -/

/-- Where the reserved high bits are 0 a value is its free low bits. -/
theorem eq_zero_append_of_high_eq_zero {hi lo : Nat} {x : BitVec (hi + lo)}
    (h : x.extractLsb' lo hi = 0) : x = (0 : BitVec hi) ++ x.extractLsb' 0 lo := by
  rw [← h, BitVec.extractLsb'_append_extractLsb']

/-- The mask of the high bits finds nothing exactly where they are 0. -/
theorem and_highMask_eq_zero_iff {hi lo : Nat} (x : BitVec (hi + lo)) :
    x &&& (BitVec.allOnes hi ++ 0#lo) = 0 ↔ x.extractLsb' lo hi = 0 := by
  have hmasked : x &&& (BitVec.allOnes hi ++ 0#lo) = x.extractLsb' lo hi ++ 0#lo := by
    conv_lhs => rw [← BitVec.extractLsb'_append_extractLsb' (x := x)]
    rw [BitVec.and_append, BitVec.and_allOnes, BitVec.and_zero]
  rw [hmasked]
  constructor
  · intro h
    rw [← BitVec.extractLsb'_append_eq_left (a := x.extractLsb' lo hi) (b := 0#lo), h]
    simp
  · intro h
    simp [h]

/-- The mask of one bit finds nothing exactly where the bit is 0. -/
theorem and_twoPow_eq_zero_iff {n i : Nat} (hi : i < n) (x : BitVec n) :
    x &&& BitVec.twoPow n i = 0 ↔ x.getLsbD i = false := by
  have hne : BitVec.twoPow n i ≠ 0 := fun h => by
    simpa [hi] using congrArg (BitVec.getLsbD · i) h
  rw [BitVec.and_twoPow]
  split <;> simp_all

/-- Format F's mask finds nothing exactly where bit 1 and bits 23:3 are 0 (R115). -/
theorem and_flagsMask_eq_zero_iff (imm : BitVec 24) :
    imm &&& 0xFFFFFA = 0 ↔ imm.extractLsb' 3 21 = 0 ∧ imm.getLsbD 1 = false := by
  have hmask : (0xFFFFFA : BitVec 24) = (BitVec.allOnes 21 ++ 0#3) ||| BitVec.twoPow 24 1 := by decide
  rw [hmask, BitVec.and_or_distrib_left, ← and_highMask_eq_zero_iff (hi := 21) (lo := 3),
    ← and_twoPow_eq_zero_iff (by decide)]
  exact BitVec.or_eq_zero_iff

/-- The low three bits of format F, the middle one reserved, as the flags byte lays them out (R116). -/
theorem zero_append_low_eq_flagsByte : ∀ low : BitVec 3, low.getLsbD 1 = false →
    (0 : BitVec 21) ++ low = (0 : BitVec 16) ++ flagsByte (low.getLsbD 2) (low.getLsbD 0) := by
  decide

/-- Where the reserved bits of format F are 0 the immediate is the flags byte (R116). -/
theorem eq_flagsByte_of_reserved_eq_zero {imm : BitVec 24} (hhigh : imm.extractLsb' 3 21 = 0)
    (hbit : imm.getLsbD 1 = false) :
    imm = (0 : BitVec 16) ++ flagsByte (imm.getLsbD 2) (imm.getLsbD 0) := by
  have hlow := zero_append_low_eq_flagsByte (imm.extractLsb' 0 3)
  simp only [BitVec.getLsbD_extractLsb'] at hlow
  exact (eq_zero_append_of_high_eq_zero (hi := 21) (lo := 3) hhigh).trans (hlow hbit)

/-! ## What a word can stand for -/

/-- No command has an opcode that R123 reserves. -/
theorem opcodeOf_not_reserved (i : Instr) : ¬ OpcodeReserved (opcodeOf i).toNat := by
  cases i <;> simp [OpcodeReserved, opcodeOf]

/-- What the decoder can answer for w: a refusal with its reason, or the command whose encoding w is. -/
inductive DecodeCase (w : Word) : Decoded → Prop
  /-- The opcode is reserved (R123). -/
  | reservedOpcode (hop : OpcodeReserved (opField w).toNat) : DecodeCase w .reservedOpcode
  /-- A reserved bit of a defined opcode is 1 (R124). -/
  | reservedBits (hop : ¬ OpcodeReserved (opField w).toNat)
      (hbits : immField w &&& reservedMask (opField w).toNat ≠ 0) : DecodeCase w .reservedBits
  /-- The word is a command's, with no reserved bit set (R115, R122). -/
  | instr (i : Instr) (henc : encode i = w) (hop : ¬ OpcodeReserved (opField w).toNat)
      (hbits : immField w &&& reservedMask (opField w).toNat = 0) : DecodeCase w (.instr i)

/-- A format decodes soundly: under i's opcode, a check p that says the reserved bits are 0 and leaves i's
immediate. -/
theorem decodeCase_of_check {w : Word} {op : Nat} {i : Instr} {p : Prop} [Decidable p]
    (hw : (opField w).toNat = op) (hi : (opcodeOf i).toNat = op)
    (hmask : immField w &&& reservedMask op = 0 ↔ p) (himm : p → immField w = immOf i) :
    DecodeCase w (if p then .instr i else .reservedBits) := by
  subst hw
  have hres : ¬ OpcodeReserved (opField w).toNat := hi ▸ opcodeOf_not_reserved i
  split
  case isTrue hp =>
    refine .instr i ?_ hres (hmask.mpr hp)
    rw [encode, ← himm hp, BitVec.eq_of_toNat_eq hi, opField_append_immField]
  case isFalse hp => exact .reservedBits hres (mt hmask.mp hp)

section Formats

variable {w : Word} {op : Nat} (hw : (opField w).toNat = op)

include hw

theorem decodeN_case {i : Instr} (hi : (opcodeOf i).toNat = op) (himm : immOf i = 0)
    (hmask : reservedMask op = BitVec.allOnes 24) : DecodeCase w (decodeN (immField w) i) :=
  decodeCase_of_check hw hi (by rw [hmask, BitVec.and_allOnes]) fun h => h.trans himm.symm

theorem decodeB_case {mk : BitVec 6 → Instr} (hi : ∀ n, (opcodeOf (mk n)).toNat = op)
    (himm : ∀ n, immOf (mk n) = (0 : BitVec 18) ++ n)
    (hmask : reservedMask op = BitVec.allOnes 18 ++ 0#6) : DecodeCase w (decodeB (immField w) mk) :=
  decodeCase_of_check hw (hi _) (by rw [hmask]; exact and_highMask_eq_zero_iff _)
    fun h => (eq_zero_append_of_high_eq_zero (hi := 18) (lo := 6) h).trans (himm _).symm

theorem decodeF_case {mk : Bool → Bool → Instr} (hi : ∀ au vi, (opcodeOf (mk au vi)).toNat = op)
    (himm : ∀ au vi, immOf (mk au vi) = (0 : BitVec 16) ++ flagsByte au vi)
    (hmask : reservedMask op = 0xFFFFFA) : DecodeCase w (decodeF (immField w) mk) :=
  decodeCase_of_check hw (hi _ _) (by rw [hmask]; exact and_flagsMask_eq_zero_iff _)
    fun ⟨hhigh, hbit⟩ => (eq_flagsByte_of_reserved_eq_zero hhigh hbit).trans (himm _ _).symm

theorem decodeT_case {mk : BitVec 5 → Instr} (hi : ∀ t, (opcodeOf (mk t)).toNat = op)
    (himm : ∀ t, immOf (mk t) = (0 : BitVec 19) ++ t)
    (hmask : reservedMask op = BitVec.allOnes 19 ++ 0#5) : DecodeCase w (decodeT (immField w) mk) :=
  decodeCase_of_check hw (hi _) (by rw [hmask]; exact and_highMask_eq_zero_iff _)
    fun h => (eq_zero_append_of_high_eq_zero (hi := 19) (lo := 5) h).trans (himm _).symm

theorem decodeA_case {mk : BitVec 8 → Instr} (hi : ∀ p, (opcodeOf (mk p)).toNat = op)
    (himm : ∀ p, immOf (mk p) = (0 : BitVec 16) ++ p)
    (hmask : reservedMask op = BitVec.allOnes 16 ++ 0#8) : DecodeCase w (decodeA (immField w) mk) :=
  decodeCase_of_check hw (hi _) (by rw [hmask]; exact and_highMask_eq_zero_iff _)
    fun h => (eq_zero_append_of_high_eq_zero (hi := 16) (lo := 8) h).trans (himm _).symm

theorem decodeV_case {mk : BitVec 4 → BitVec 8 → Instr}
    (hi : ∀ ft p, (opcodeOf (mk ft p)).toNat = op)
    (himm : ∀ ft p, immOf (mk ft p) = (0 : BitVec 12) ++ ft ++ p)
    (hmask : reservedMask op = BitVec.allOnes 12 ++ 0#12) :
    DecodeCase w (decodeV (immField w) mk) := by
  refine decodeCase_of_check hw (hi _ _) (by rw [hmask]; exact and_highMask_eq_zero_iff _) fun h => ?_
  have hhigh : (0 : BitVec 12) ++ (immField w).extractLsb' 8 4 = (immField w).extractLsb' 8 16 := by
    rw [← h]
    exact BitVec.extractLsb'_append_extractLsb'_eq_extractLsb' (start₁ := 8) (len₁ := 4) rfl
  rw [himm, hhigh]
  exact (BitVec.extractLsb'_append_extractLsb' (w := 16) (len := 8)).symm

end Formats

/-- Format S has no reserved bit (R115). -/
theorem rdSkip_case {w : Word} (hw : (opField w).toNat = 0x04) :
    DecodeCase w (.instr (.rdSkip (immField w))) := by
  have hop : opField w = opcodeOf (.rdSkip (immField w)) := BitVec.eq_of_toNat_eq hw
  refine .instr _ ?_ (hop ▸ opcodeOf_not_reserved _) ?_
  · rw [encode, ← hop, immOf, opField_append_immField]
  · rw [hw]
    exact BitVec.and_zero

/-- Every word is one of the three cases: the opcode selects the row (R111), and the row's format decides. -/
theorem decode_case (w : Word) : DecodeCase w (decode w) := by
  unfold decode
  split
  case h_1 h | h_3 h | h_5 h | h_6 h | h_7 h | h_9 h | h_10 h | h_11 h | h_12 h | h_17 h | h_18 h | h_19 h
      | h_20 h => exact decodeN_case h rfl rfl rfl
  case h_2 h | h_8 h => exact decodeB_case h (fun _ => rfl) (fun _ => rfl) rfl
  case h_4 h => exact rdSkip_case h
  case h_13 h => exact decodeF_case h (fun _ _ => rfl) (fun _ _ => rfl) rfl
  case h_14 h => exact decodeT_case h (fun _ => rfl) (fun _ => rfl) rfl
  case h_15 h => exact decodeA_case h (fun _ => rfl) (fun _ => rfl) rfl
  case h_16 h => exact decodeV_case h (fun _ _ => rfl) (fun _ _ => rfl) rfl
  case h_21 =>
    have hlt := (opField w).isLt
    refine .reservedOpcode ?_
    unfold OpcodeReserved
    simp only [imp_false] at *
    omega

theorem encode_of_decode {w : Word} {i : Instr} (h : decode w = .instr i) : encode i = w := by
  have hcase := decode_case w
  rw [h] at hcase
  cases hcase with
  | instr _ henc => exact henc

theorem decode_of_reservedOpcode {w : Word} (h : OpcodeReserved (opField w).toNat) :
    decode w = .reservedOpcode := by
  have hcase := decode_case w
  generalize decode w = d at hcase ⊢
  cases hcase with
  | reservedOpcode => rfl
  | reservedBits hop => exact absurd h hop
  | instr _ _ hop => exact absurd h hop

theorem decode_of_reservedBits {w : Word} (hop : ¬ OpcodeReserved (opField w).toNat)
    (hbits : immField w &&& reservedMask (opField w).toNat ≠ 0) : decode w = .reservedBits := by
  have hcase := decode_case w
  generalize decode w = d at hcase ⊢
  cases hcase with
  | reservedOpcode hres => exact absurd hres hop
  | reservedBits => rfl
  | instr _ _ _ hzero => exact absurd hzero hbits

end Sys2Proof
end

section
/-! The round trip from a command: each format reads back the fields it lays out (30_encoding.md R115). -/

namespace Sys2Proof

theorem decodeN_zero (i : Instr) : decodeN 0 i = .instr i := rfl

theorem decodeB_fields (n : BitVec 6) (mk : BitVec 6 → Instr) :
    decodeB ((0 : BitVec 18) ++ n) mk = .instr (mk n) := by
  rw [decodeB, BitVec.extractLsb'_append_eq_left, BitVec.extractLsb'_append_eq_right, if_pos rfl]

theorem decodeF_fields (au vi : Bool) (mk : Bool → Bool → Instr) :
    decodeF ((0 : BitVec 16) ++ flagsByte au vi) mk = .instr (mk au vi) := by
  cases au <;> cases vi <;> rfl

theorem decodeT_fields (t : BitVec 5) (mk : BitVec 5 → Instr) :
    decodeT ((0 : BitVec 19) ++ t) mk = .instr (mk t) := by
  rw [decodeT, BitVec.extractLsb'_append_eq_left, BitVec.extractLsb'_append_eq_right, if_pos rfl]

theorem decodeA_fields (p : BitVec 8) (mk : BitVec 8 → Instr) :
    decodeA ((0 : BitVec 16) ++ p) mk = .instr (mk p) := by
  rw [decodeA, BitVec.extractLsb'_append_eq_left, BitVec.extractLsb'_append_eq_right, if_pos rfl]

theorem decodeV_fields (ft : BitVec 4) (p : BitVec 8) (mk : BitVec 4 → BitVec 8 → Instr) :
    decodeV ((0 : BitVec 12) ++ ft ++ p) mk = .instr (mk ft p) := by
  have hres : ((0 : BitVec 12) ++ ft ++ p).extractLsb' 12 12 = 0 :=
    (BitVec.extractLsb'_append_eq_of_le (by decide)).trans BitVec.extractLsb'_append_eq_left
  have hft : ((0 : BitVec 12) ++ ft ++ p).extractLsb' 8 4 = ft :=
    (BitVec.extractLsb'_append_eq_of_le (by decide)).trans BitVec.extractLsb'_append_eq_right
  rw [decodeV, if_pos hres, hft, BitVec.extractLsb'_append_eq_right]

/-- The opcode of a command selects its own row, and the row's format reads back the fields. -/
theorem decode_encode (i : Instr) : decode (encode i) = .instr i := by
  rw [decode, encode, opField_append, immField_append]
  cases i with
  | rdSkip n => rfl
  | rdBits n => exact decodeB_fields n _
  | wrBits n => exact decodeB_fields n _
  | flvFhdr au vi => exact decodeF_fields au vi _
  | flvThdr t => exact decodeT_fields t _
  | flvAhdr p => exact decodeA_fields p _
  | flvVhdr ft p => exact decodeV_fields ft p _
  | _ => exact decodeN_zero _

end Sys2Proof
end

section
/-! The block's step on the pending word, and the host's write of CMD (30_encoding.md R112 to R114, R123, R124). -/

namespace Sys2Proof.Machine

open Sys2Proof.Safety

/-- Where the next step is the block's it performs the pending word (R114, R310). -/
theorem step_of_blockMoves {s : State} (h : BlockMoves s) : step s = perform s := by
  obtain ⟨hbusy, hq | hd⟩ := h
  · simp [step, hq, hbusy]
  · unfold step
    split
    · simp [hbusy]
    · simp [hbusy, hd]

theorem perform_of_instr {s : State} {i : Instr} (h : decode s.cmd = .instr i) :
    perform s = if s.env.raced then settleRace (writeSet i s) (exec i s) else exec i s := by
  rw [perform, h]

theorem perform_of_reservedOpcode {s : State} (h : decode s.cmd = .reservedOpcode) :
    perform s = .next (takeError .illegalCommand s) := by
  rw [perform, h]

theorem perform_of_reservedBits {s : State} (h : decode s.cmd = .reservedBits) :
    perform s = .next (takeError .illegalOperand s) := by
  rw [perform, h]

/-- A fatal error halts the block and leaves DERR and OVR (R262, R263). -/
theorem takeError_fatal (s : State) {c : Code} (hc : c.fatal = true) :
    takeError c s = { s with status :=
      { busy := false, halted := true, derr := s.status.derr, ovr := s.status.ovr, code := c } } := by
  have hderr : (c == .decodeError) = false := by
    cases c with
    | decodeError => cases hc
    | _ => rfl
  rw [takeError, Status.errored, hc, hderr, Bool.or_true, Bool.or_false]

/-! ## A word stored as the pending command -/

theorem withFetchWord_cmd (s : State) (w : Word) : (s.withFetchWord 32 w.toNat).cmd = w := by
  show BitVec.ofNat 32 (w.toNat % 2 ^ 32) = w
  rw [Nat.mod_eq_of_lt w.isLt, BitVec.ofNat_toNat, BitVec.setWidth_eq]

theorem withFetchWord_raced (s : State) (nbits w : Nat) : (s.withFetchWord nbits w).env.raced = false := rfl

/-- The word is accepted with its latency run out (entry 4). -/
theorem blockMoves_withFetchWord (s : State) (nbits w : Nat) : BlockMoves (s.withFetchWord nbits w) :=
  ⟨rfl, .inr rfl⟩

/-! ## The host's write of CMD -/

theorem writeRegister_cmd (s : State) (w : Word) : writeRegister 0x08 w s = issue w s := rfl

theorem issue_halted {s : State} (w : Word) (h : s.status.halted = true) : issue w s = s := if_pos h

theorem issue_busy {s : State} (w : Word) (hh : ¬ s.status.halted = true) (hb : s.status.busy = true) :
    issue w s = { s with status := { s.status with ovr := true } } :=
  (if_neg hh).trans (if_pos hb)

theorem issue_idle {s : State} (w : Word) (hh : ¬ s.status.halted = true) (hb : ¬ s.status.busy = true) :
    issue w s = accept w s :=
  (if_neg hh).trans (if_neg hb)

end Sys2Proof.Machine
end

section
/-! The statements about encoding (30_encoding.md): the decoder and encoder, the step on the pending word, and the
acceptance of a command. -/

namespace Sys2Proof.Proofs

open Sys2Proof.Machine Sys2Proof.Safety

/-- Settles O1. -/
theorem encodedCommandDecodesToItself : Obligations.EncodedCommandDecodesToItself := decode_encode

/-- Settles O2. -/
theorem decodedWordIsItsEncoding : Obligations.DecodedWordIsItsEncoding := fun _ _ => encode_of_decode

/-- Settles O6. -/
theorem reservedOpcodeIsIllegalCommand : Obligations.ReservedOpcodeIsIllegalCommand := by
  intro s hmoves hop
  rw [step_of_blockMoves hmoves, perform_of_reservedOpcode (decode_of_reservedOpcode hop),
    takeError_fatal s rfl]

/-- Settles O7. -/
theorem reservedBitIsIllegalOperand : Obligations.ReservedBitIsIllegalOperand := by
  intro s hmoves hop hbits
  rw [step_of_blockMoves hmoves, perform_of_reservedBits (decode_of_reservedBits hop hbits),
    takeError_fatal s rfl]

/-- Settles O3: the first eleven words are the encodings of their commands. -/
theorem sampleWordsDecode : Obligations.SampleWordsDecode :=
  ⟨decode_encode .rdInit, decode_encode (.rdBits 7), decode_encode (.rdSkip 65539),
    decode_encode .rdUe, decode_encode (.wrBits 32), decode_encode .splNext,
    decode_encode .rbspExtract, decode_encode (.flvFhdr true false), decode_encode (.flvThdr 18),
    decode_encode (.flvAhdr 1), decode_encode (.flvVhdr 2 1),
    decode_of_reservedOpcode (.inl rfl),
    decode_of_reservedBits (by simp [OpcodeReserved, opField]) (by decide)⟩

/-- Settles O4. -/
theorem stepRunsTheDecodedCommand : Obligations.StepRunsTheDecodedCommand := by
  intro s i hmoves hdec
  rw [step_of_blockMoves hmoves, perform_of_instr hdec]
  exact ⟨fun hraced => by simp [hraced], fun hraced => by simp [hraced]⟩

/-- Settles O5: the stored word decodes to the command it encodes, and its performance has met no race. -/
theorem fetchedWordIsPerformed : Obligations.FetchedWordIsPerformed := by
  intro s i
  have hdec : decode (s.withFetchWord 32 (encode i).toNat).cmd = .instr i := by
    rw [withFetchWord_cmd, decode_encode]
  exact (stepRunsTheDecodedCommand _ i (blockMoves_withFetchWord s 32 _) hdec).1
    (withFetchWord_raced s 32 _)

/-- Settles O51: the cases are those of the host's write of CMD. -/
theorem cmdWriteIsAcceptedDroppedOrIgnored : Obligations.CmdWriteIsAcceptedDroppedOrIgnored := by
  intro s w
  refine ⟨issue w s, hostAct_regWrite_inside s w (by decide) rfl, ?_⟩
  split
  case isTrue hh => exact issue_halted w hh
  case isFalse hh =>
    split
    case isTrue hb => exact issue_busy w hh hb
    case isFalse hb =>
      rw [issue_idle w hh hb]
      exact ⟨rfl, rfl, rfl⟩

end Sys2Proof.Proofs
end

section
/-! The bit reader and writer (41_bitio.md): the cursor the INIT commands make, the field a reader command
reads, and what WR.BITS leaves when it completes. -/

namespace Sys2Proof.Machine

open Sys2Proof.Safety

/-! ## The commands -/

theorem exec_rdInit (s : State) : exec .rdInit s = execRdInit s := rfl

theorem exec_wrInit (s : State) : exec .wrInit s = execWrInit s := rfl

theorem exec_rdBit (s : State) : exec .rdBit s = Ending.settle s (s.readField 1) := rfl

/-- RD.SKIP completes with OK either way (R146, R147). -/
theorem exec_rdSkip (n : BitVec 24) (s : State) :
    exec (.rdSkip n) s = Ending.settle s
      (if s.rd.cap.toNat < s.rd.pos.toNat + n.toNat then .complete .ok s
      else .complete .ok
        { s with rd := { s.rd with pos := BitVec.ofNat 32 (s.rd.pos.toNat + n.toNat) } }) := rfl

theorem raises_rdBits_of_illegal {n : BitVec 6} (s : State) (h : n.toNat < 1 ∨ 32 < n.toNat) :
    Raises (.rdBits n) s .illegalOperand :=
  congrArg (Ending.settle s) (if_pos h)

theorem exec_rdBits_of_legal {n : BitVec 6} (s : State) (h : ¬ (n.toNat < 1 ∨ 32 < n.toNat)) :
    exec (.rdBits n) s = Ending.settle s (s.readField n.toNat) :=
  congrArg (Ending.settle s) (if_neg h)

theorem raises_wrBits_of_illegal {n : BitVec 6} (s : State) (h : n.toNat < 1 ∨ 32 < n.toNat) :
    Raises (.wrBits n) s .illegalOperand :=
  congrArg (Ending.settle s) (if_pos h)

theorem exec_wrBits_of_legal {n : BitVec 6} (s : State) (h : ¬ (n.toNat < 1 ∨ 32 < n.toNat)) :
    exec (.wrBits n) s = Ending.settle s (s.emitting (valueBits n.toNat s.opndA) id) :=
  congrArg (Ending.settle s) (if_neg h)

/-- A command that raises leaves the code it raises (R264). -/
theorem code_of_raises {i : Instr} {s t : State} {c : Code} (h : Raises i s c) (ht : exec i s = .next t) :
    t.status.code = c := by
  obtain rfl : takeError c s = t := by simpa [Raises, ht] using h.symm
  rfl

/-! ## The cursor of the INIT commands -/

/-- The cursor over B bytes at A, after the operand checks (R140, R150). -/
theorem newCursor_eq (s : State) : s.newCursor =
    if 2 ^ 29 - 1 < s.latB.toNat ∨ 2 ^ 32 ≤ s.latA.toNat + s.latB.toNat then .error .illegalOperand
    else .ok { base := s.latA, cap := BitVec.ofNat 32 (8 * s.latB.toNat), pos := 0 } := by
  obtain ⟨hbad, he⟩ | ⟨hB, hA, he⟩ := newCursor_cases s
  · rw [he, if_pos hbad]
  · rw [he, if_neg (not_or.mpr ⟨Nat.not_lt.mpr hB, Nat.not_le.mpr hA⟩)]

/-! ## The field at RD_POS -/

/-- A field inside the capacity, in admitted bytes, is delivered (R142). -/
theorem readField_of_fits {s : State} {n : Nat} (hcap : s.rd.pos.toNat + n ≤ s.rd.cap.toNat)
    (hadm : s.plat.admitsAll (s.inSpan n) = true) :
    s.readField n = .complete .ok (s.deliver
      (BitVec.ofNat 32 (s.mem.readBits s.rd.base.toNat s.rd.pos.toNat n)) (s.rd.pos.toNat + n)) := by
  have htake : s.take s.rd.pos.toNat n = .ok (s.mem.readBits s.rd.base.toNat s.rd.pos.toNat n) :=
    (if_neg (Nat.not_lt.mpr hcap)).trans (if_pos hadm)
  rw [State.readField, htake]

/-- n bits that are the low n bits of v, the first the most significant, spell v mod 2^n (R141, R153). -/
theorem Memory.readBits_eq_mod {m : Memory} {base p n v : Nat}
    (h : ∀ j, j < n → m.bit base (p + j) = v.testBit (n - 1 - j)) :
    m.readBits base p n = v % 2 ^ n := by
  refine Nat.eq_of_testBit_eq fun i => ?_
  rw [Memory.testBit_readBits, Nat.testBit_mod_two_pow]
  by_cases hi : i < n
  · rw [h _ (by omega), show n - 1 - (n - 1 - i) = i by omega]
  · simp [hi]

/-! ## WR.BITS -/

/-- WR.BITS with a legal count ends in the emission of the low n bits of A (R152). -/
theorem wrBits_endsInEmission {n : BitVec 6} {s : State} (hm : s.mem.wf = true)
    (h : ¬ (n.toNat < 1 ∨ 32 < n.toNat)) :
    EndsInEmission (.wrBits n) s n.toNat (fun j => s.latA.getLsbD (n.toNat - 1 - j)) s.result :=
  emitting_endsInEmission hm (exec_wrBits_of_legal s h) (valueBits_length _ _)
    (valueBits_getD _ _) (fun _ ht => by rw [← ht]; rfl)

/-- An emission that completes with OK fits the capacity, in admitted bytes, and wrote its bits (R158). -/
theorem emitted_of_ok {i : Instr} {s t : State} {n : Nat} {f : Nat → Bool} {r : Word}
    (h : EndsInEmission i s n f r) (ht : exec i s = .next t) (hok : t.status.code = .ok) :
    s.wr.pos.toNat + n ≤ s.wr.cap.toNat ∧ s.plat.admitsAll (s.outSpan n) = true ∧
      EmittedBits s t n f := by
  unfold EndsInEmission at h
  split at h
  case isTrue => simp [code_of_raises h ht] at hok
  case isFalse hcap =>
    split at h
    case isTrue => simp [code_of_raises h ht] at hok
    case isFalse hadm =>
      obtain ⟨t', ht', hem, -⟩ := h
      obtain rfl : t = t' := by simpa [ht] using ht'
      exact ⟨Nat.not_lt.mp hcap, by simpa using hadm, hem⟩

/-- WR.BITS that completes with OK had a legal count (R152). -/
theorem wrBits_legal_of_ok {n : BitVec 6} {s t : State} (ht : exec (.wrBits n) s = .next t)
    (hok : t.status.code = .ok) : ¬ (n.toNat < 1 ∨ 32 < n.toNat) := by
  intro hbad
  simp [code_of_raises (raises_wrBits_of_illegal s hbad) ht] at hok

end Sys2Proof.Machine
end

section
/-! The exp-Golomb decoder where it raises: in the zeros of a code or in its suffix (42_expgolomb.md R170,
60_exceptions.md R266). -/

namespace Sys2Proof.Machine

open Sys2Proof.Safety

/-! ## Single bits -/

/-- Take(1) past the capacity (R143). -/
theorem take_one_pastCap {s : State} {p : Nat} (h : s.rd.cap.toNat ≤ p) :
    s.take p 1 = .error .decodeError := by
  rw [take_one_eq, if_pos (by omega)]

/-- Take(1) of a bit inside the capacity whose byte is not admitted (R141). -/
theorem take_one_notAdmitted {s : State} {p : Nat} (hcap : p + 1 ≤ s.rd.cap.toNat)
    (hadm : s.plat.admits (s.rd.base.toNat + p / 8) = false) : s.take p 1 = .error .busError := by
  rw [take_one_eq, if_neg (by omega), if_neg (by simp [hadm])]

/-- The k bits at RD_POS can be read and are all 0. -/
def State.zerosAhead (s : State) (k : Nat) : Prop :=
  ∀ x, x < k → s.rd.pos.toNat + x + 1 ≤ s.rd.cap.toNat ∧
    s.plat.admits (s.rd.base.toNat + (s.rd.pos.toNat + x) / 8) = true ∧
    s.mem.bit s.rd.base.toNat (s.rd.pos.toNat + x) = false

/-- Zero bits inside the capacity and inside an admitted span are zeros ahead. -/
theorem zerosAhead_of_span {s : State} {k n : Nat} (hcap : k ≤ s.rd.cap.toNat - s.rd.pos.toNat)
    (hn : k ≤ n) (hadm : s.plat.admitsAll (s.inSpan n) = true)
    (hzero : ∀ j, j < k → s.mem.bit s.rd.base.toNat (s.rd.pos.toNat + j) = false) :
    s.zerosAhead k :=
  fun x hx => ⟨by omega, admitted_bit hadm (by omega), hzero x hx⟩

/-! ## The zeros and the 1 bit of a code -/

/-- Before the 32nd zero at least one more bit may be read (R171). -/
theorem ueZeroCap_sub {k : Nat} (hk : k < 32) : Config.ueZeroCap - k = (31 - k) + 1 := by
  simp only [Config.ueZeroCap]
  omega

/-- Reading the zeros ends with the error of the first bit that raises (R170, R266). -/
theorem uePrefix_raises {s : State} {k : Nat} {c : Code} (hk : k < 32) (hz : s.zerosAhead k)
    (hc : s.take (s.rd.pos.toNat + k) 1 = .error c) :
    s.uePrefix Config.ueZeroCap s.rd.pos.toNat 0 = .error c := by
  rw [uePrefix_zeros s _ _ _ k hk hz, ueZeroCap_sub hk, State.uePrefix, hc]

/-- Reading the zeros stops at the 1 bit after them (R170). -/
theorem uePrefix_stops {s : State} {k : Nat} (hk : k < 32) (hz : s.zerosAhead k)
    (hcap : s.rd.pos.toNat + k + 1 ≤ s.rd.cap.toNat)
    (hadm : s.plat.admits (s.rd.base.toNat + (s.rd.pos.toNat + k) / 8) = true)
    (hone : s.mem.bit s.rd.base.toNat (s.rd.pos.toNat + k) = true) :
    s.uePrefix Config.ueZeroCap s.rd.pos.toNat 0 = .ok (s.rd.pos.toNat + k + 1, k) := by
  have htake : s.take (s.rd.pos.toNat + k) 1 = .ok 1 := by rw [take_one hcap hadm, hone]; rfl
  rw [uePrefix_zeros s _ _ _ k hk hz, ueZeroCap_sub hk, State.uePrefix, htake, Nat.zero_add]
  rfl

/-! ## The code -/

theorem ueCode_of_uePrefix_error {s : State} {c : Code}
    (h : s.uePrefix Config.ueZeroCap s.rd.pos.toNat 0 = .error c) : s.ueCode = .error c := by
  rw [State.ueCode, h]

theorem ueCode_of_takeEach_error {s : State} {p k : Nat} {c : Code}
    (hp : s.uePrefix Config.ueZeroCap s.rd.pos.toNat 0 = .ok (p, k)) (h : s.takeEach p k = .error c) :
    s.ueCode = .error c := by
  simp only [State.ueCode, hp, h]

/-- Both decoders raise what the decoding of the code raises (R170, R175). -/
theorem raises_of_ueCode_error {s : State} {c : Code} (h : s.ueCode = .error c) :
    Raises .rdUe s c ∧ Raises .rdSe s c := by
  have hue : exec .rdUe s = execRdUe s := rfl
  have hse : exec .rdSe s = execRdSe s := rfl
  rw [Raises, Raises, hue, hse, execRdUe, execRdSe, h]
  exact ⟨rfl, rfl⟩

/-- A bit that raises after fewer than 32 zeros ends both decoders. -/
theorem raises_after_zeros {s : State} {k : Nat} {c : Code} (hk : k < 32) (hz : s.zerosAhead k)
    (hc : s.take (s.rd.pos.toNat + k) 1 = .error c) : Raises .rdUe s c ∧ Raises .rdSe s c :=
  raises_of_ueCode_error (ueCode_of_uePrefix_error (uePrefix_raises hk hz hc))

/-- After k zeros and the 1 bit, suffix bit j ends both decoders if it is the first that raises
(R266). All the bits before it lie in an admitted span and inside the capacity. -/
theorem raises_in_suffix {s : State} {k j n : Nat} {c : Code} (hk : k < 32) (hj : j < k)
    (hcap : s.rd.pos.toNat + k + 1 + j ≤ s.rd.cap.toNat) (hn : k + 1 + j ≤ n)
    (hadm : s.plat.admitsAll (s.inSpan n) = true)
    (hzero : ∀ x, x < k → s.mem.bit s.rd.base.toNat (s.rd.pos.toNat + x) = false)
    (hone : s.mem.bit s.rd.base.toNat (s.rd.pos.toNat + k) = true)
    (hc : s.take (s.rd.pos.toNat + k + 1 + j) 1 = .error c) :
    Raises .rdUe s c ∧ Raises .rdSe s c := by
  have hstop := uePrefix_stops hk (zerosAhead_of_span (by omega) (by omega) hadm hzero) (by omega)
    (admitted_bit hadm (by omega)) hone
  refine raises_of_ueCode_error (ueCode_of_takeEach_error hstop (takeEach_raises hj (fun x hx => ?_) hc))
  refine ⟨by omega, ?_⟩
  rw [show s.rd.pos.toNat + k + 1 + x = s.rd.pos.toNat + (k + 1 + x) by omega]
  exact admitted_bit hadm (by omega)

end Sys2Proof.Machine
end

section
/-! The statements about the bit reader and the bit writer (41_bitio.md). -/

namespace Sys2Proof.Proofs

open Sys2Proof.Machine Sys2Proof.Safety

/-! ## Reading -/

/-- Settles O20: the checks of the command are those of its cursor. -/
theorem rdInitSetsTheReader : Obligations.RdInitSetsTheReader := by
  intro s
  rw [Raises, exec_rdInit, execRdInit, newCursor_eq]
  split
  case isTrue => rfl
  case isFalse => rfl

/-- Settles O21. -/
theorem rdBitsReadsTheField : Obligations.RdBitsReadsTheField := by
  intro n s
  split
  case isTrue hbad => exact raises_rdBits_of_illegal s hbad
  case isFalse hlegal => exact readField_endsInField (by omega) (exec_rdBits_of_legal s hlegal)

/-- Settles O22. -/
theorem rdBitReadsOneBit : Obligations.RdBitReadsOneBit :=
  fun s => readField_endsInField (by omega) (exec_rdBit s)

/-- Settles O23: both branches complete with OK. -/
theorem rdSkipAdvancesOrStays : Obligations.RdSkipAdvancesOrStays := by
  intro n s
  rw [exec_rdSkip]
  split
  case isTrue => rfl
  case isFalse => rfl

/-- Settles O27: in each clause the bits before one position can be read, and the bit there raises. -/
theorem cutOffCodesRaise : Obligations.CutOffCodesRaise := by
  intro s
  refine ⟨fun hleft hadm hzero => ?_, fun k hk hcap hzero =>
    ⟨fun hone hshort hadm => ?_, fun hone j hj hfit hadm hbus => ?_, fun hadm hbus => ?_⟩⟩
  · exact raises_after_zeros hleft (zerosAhead_of_span le_rfl le_rfl hadm hzero)
      (take_one_pastCap (by omega))
  · exact raises_in_suffix (j := s.rd.cap.toNat - (s.rd.pos.toNat + k + 1)) hk (by omega) (by omega)
      (by omega) hadm hzero hone (take_one_pastCap (by omega))
  · exact raises_in_suffix hk hj (by omega) le_rfl hadm hzero hone (take_one_notAdmitted hfit hbus)
  · exact raises_after_zeros hk (zerosAhead_of_span (by omega) le_rfl hadm hzero)
      (take_one_notAdmitted hcap hbus)

/-! ## Writing -/

/-- Settles O30: as for the reader (O20), and no field but the writer and STATUS is touched. -/
theorem wrInitSetsTheWriter : Obligations.WrInitSetsTheWriter := by
  intro s
  rw [Raises, exec_wrInit, execWrInit, newCursor_eq]
  split
  case isTrue => rfl
  case isFalse => rfl

/-- Settles O31. -/
theorem wrBitsEmitsTheLowBits : Obligations.WrBitsEmitsTheLowBits := by
  intro n s hm
  split
  case isTrue hbad => exact raises_wrBits_of_illegal s hbad
  case isFalse hlegal => exact wrBits_endsInEmission hm hlegal

/-- Settles O32: the write shows that the bytes are admitted and what their bits are. -/
theorem writtenFieldIsReadBack : Obligations.WrittenFieldIsReadBack := by
  intro n s t u hm ht hok hkept hplat hbase hpos hcap
  have hlegal := wrBits_legal_of_ok ht hok
  obtain ⟨-, hadm, hem⟩ := emitted_of_ok (wrBits_endsInEmission hm hlegal) ht hok
  have hadm' : u.plat.admitsAll (u.inSpan n.toNat) = true := by
    rw [State.inSpan, hplat, hbase, hpos]
    exact hadm
  have hfield : u.mem.readBits u.rd.base.toNat u.rd.pos.toNat n.toNat = s.latA.toNat % 2 ^ n.toNat := by
    rw [hbase, hpos]
    exact Memory.readBits_eq_mod fun j hj => (hkept j hj).trans (hem.wrote j hj)
  rw [exec_rdBits_of_legal u hlegal, readField_of_fits hcap hadm', hfield]
  rfl

end Sys2Proof.Proofs
end


section
/-! The exp-Golomb decoder where it completes: the code that stands at RD_POS is the one it reads, and the
signed value a code stands for (42_expgolomb.md R170 to R176). -/

namespace Sys2Proof.Machine

open Sys2Proof.Safety

/-! ## Codes in memory -/

/-- The k + 1 bits of v + 1: its highest bit is bit k (R172). -/
theorem codeZeros_bounds (v : Nat) : 2 ^ codeZeros v ≤ v + 1 ∧ v + 1 < 2 ^ (codeZeros v + 1) :=
  (Nat.log2_eq_iff (Nat.succ_ne_zero v)).mp rfl

theorem codeZeros_eq {v k : Nat} (hlo : 2 ^ k ≤ v + 1) (hhi : v + 1 < 2 ^ (k + 1)) : codeZeros v = k :=
  (Nat.log2_eq_iff (Nat.succ_ne_zero v)).mpr ⟨hlo, hhi⟩

/-- A code value has at most 31 leading zeros (R171, R172). -/
theorem codeZeros_lt {v : Nat} (hv : v ≤ 2 ^ 32 - 2) : codeZeros v < 32 :=
  (Nat.log2_lt (Nat.succ_ne_zero v)).mpr (by omega)

/-- The code of v as two fields: zeros, then v + 1 in k + 1 bits (R172). -/
theorem codeAt_iff {m : Memory} {base p v : Nat} :
    CodeAt m base p v ↔ (∀ j, j < codeZeros v → m.bit base (p + j) = false) ∧
      m.readBits base (p + codeZeros v) (codeZeros v + 1) = v + 1 := by
  refine and_congr_right fun _ => ⟨fun h => ?_, fun h j hj => ?_⟩
  · rw [Memory.readBits_eq_mod fun j hj => h j (Nat.le_of_lt_succ hj),
      Nat.mod_eq_of_lt (codeZeros_bounds v).2]
  · rw [← h, Memory.testBit_readBits, decide_eq_true (by omega), Bool.true_and]
    congr 1
    omega

/-- After its zeros a code is a 1 bit and a k-bit suffix (R170). -/
theorem codeAt_one_suffix {m : Memory} {base p v : Nat} (h : CodeAt m base p v) :
    m.bit base (p + codeZeros v) = true ∧
      m.readBits base (p + codeZeros v + 1) (codeZeros v) + 2 ^ codeZeros v - 1 = v := by
  have hfield := (codeAt_iff.mp h).2
  have hlt := m.readBits_lt base (p + codeZeros v + 1) (codeZeros v)
  have hlo := (codeZeros_bounds v).1
  rw [Memory.readBits] at hfield
  cases hbit : m.bit base (p + codeZeros v) with
  | false => simp only [hbit, Bool.toNat_false] at hfield; omega
  | true => simp only [hbit, Bool.toNat_true] at hfield; exact ⟨rfl, by omega⟩

/-- k < 32 zeros, a 1 bit and any k-bit suffix are the code of a value up to 2^32 - 2 (R172). -/
theorem codeAt_of_suffix {m : Memory} {base p k : Nat} (hk : k < 32)
    (hzero : ∀ j, j < k → m.bit base (p + j) = false) (hone : m.bit base (p + k) = true) :
    ∃ v, v ≤ 2 ^ 32 - 2 ∧ CodeAt m base p v ∧ codeZeros v = k ∧
      m.readBits base (p + k + 1) k + 2 ^ k - 1 = v := by
  have hlt := m.readBits_lt base (p + k + 1) k
  have hpow : 2 ^ k ≤ 2 ^ 31 := Nat.pow_le_pow_right (by omega) (by omega)
  have hzeros : codeZeros (m.readBits base (p + k + 1) k + 2 ^ k - 1) = k :=
    codeZeros_eq (by omega) (by rw [Nat.pow_succ]; omega)
  refine ⟨_, by omega, codeAt_iff.mpr ?_, hzeros, rfl⟩
  rw [hzeros, Memory.readBits, hone, Bool.toNat_true]
  exact ⟨hzero, by omega⟩

/-- Whether the code of v stands at p depends on its 2k + 1 bits only. -/
theorem codeAt_of_same_bits {m m' : Memory} {base p v : Nat} (h : CodeAt m base p v)
    (hsame : ∀ j, j < codeBits v → m'.bit base (p + j) = m.bit base (p + j)) : CodeAt m' base p v := by
  obtain ⟨hzero, hfield⟩ := h
  simp only [codeBits] at hsame
  refine ⟨fun j hj => (hsame j (by omega)).trans (hzero j hj), fun j hj => ?_⟩
  rw [← hfield j hj, Nat.add_assoc]
  exact hsame _ (by omega)

/-! ## Decoding a code -/

/-- The decoding of the code that stands at RD_POS (R170, R172). -/
theorem ueCode_of_codeAt {s : State} {v : Nat} (hv : v ≤ 2 ^ 32 - 2)
    (hcode : CodeAt s.mem s.rd.base.toNat s.rd.pos.toNat v)
    (hcap : s.rd.pos.toNat + codeBits v ≤ s.rd.cap.toNat)
    (hadm : s.plat.admitsAll (s.inSpan (codeBits v)) = true) :
    s.ueCode = .ok (v, s.rd.pos.toNat + codeBits v) := by
  obtain ⟨hone, hvalue⟩ := codeAt_one_suffix hcode
  have hbits : codeBits v = 2 * codeZeros v + 1 := rfl
  have hstop := uePrefix_stops (codeZeros_lt hv)
    (zerosAhead_of_span (by omega) (by omega) hadm hcode.1) (by omega) (admitted_bit hadm (by omega)) hone
  have hsuffix := takeEach_eq (s := s) (p := s.rd.pos.toNat + codeZeros v + 1) (n := codeZeros v)
    fun j hj => ⟨by omega, by
      rw [show s.rd.pos.toNat + codeZeros v + 1 + j = s.rd.pos.toNat + (codeZeros v + 1 + j) by omega]
      exact admitted_bit hadm (by omega)⟩
  simp only [State.ueCode, hstop, hsuffix, hvalue, hbits]
  congr 2
  omega

/-- Where the zeros of a code are read to their end, they are j zeros and a 1 bit, within the bits the loop may
read (R170). -/
theorem uePrefix_bits {s : State} {f p k p' k' : Nat} (h : s.uePrefix f p k = .ok (p', k')) :
    ∃ j, j < f ∧ p' = p + j + 1 ∧ k' = k + j ∧
      (∀ x, x < j → s.mem.bit s.rd.base.toNat (p + x) = false) ∧
      s.mem.bit s.rd.base.toNat (p + j) = true := by
  induction f generalizing p k with
  | zero => simp [State.uePrefix] at h
  | succ f ih =>
    rw [State.uePrefix] at h
    cases ht : s.take p 1 with
    | error c => simp [ht] at h
    | ok b =>
      obtain ⟨-, -, rfl⟩ := take_ok ht
      cases hbit : s.mem.bit s.rd.base.toNat p with
      | true =>
        obtain ⟨rfl, rfl⟩ : p + 1 = p' ∧ k = k' := by simpa [ht, Memory.readBits, hbit] using h
        exact ⟨0, Nat.succ_pos f, rfl, rfl, fun _ hx => absurd hx (Nat.not_lt_zero _), hbit⟩
      | false =>
        obtain ⟨j, hj, rfl, rfl, hzero, hone⟩ := ih (by simpa [ht, Memory.readBits, hbit] using h)
        refine ⟨j + 1, by omega, by omega, by omega, fun x hx => ?_, ?_⟩
        · cases x with
          | zero => exact hbit
          | succ x => rw [← hzero x (by omega)]; congr 1; omega
        · rw [← hone]; congr 1; omega

/-- What is decoded is the code that stands at RD_POS, inside the capacity (R170, R172). -/
theorem codeAt_of_ueCode {s : State} {r p : Nat} (h : s.ueCode = .ok (r, p)) :
    r ≤ 2 ^ 32 - 2 ∧ CodeAt s.mem s.rd.base.toNat s.rd.pos.toNat r ∧
      p = s.rd.pos.toNat + codeBits r ∧ s.rd.pos.toNat + codeBits r ≤ s.rd.cap.toNat := by
  have hcap := (ueCode_ok h).2
  rw [State.ueCode] at h
  cases hp : s.uePrefix Config.ueZeroCap s.rd.pos.toNat 0 with
  | error c => simp [hp] at h
  | ok x =>
    obtain ⟨p1, k⟩ := x
    cases ht : s.takeEach p1 k with
    | error c => simp [hp, ht] at h
    | ok w =>
      obtain ⟨j, hj, rfl, hkj, hzero, hone⟩ := uePrefix_bits hp
      obtain rfl : k = j := hkj.trans (Nat.zero_add j)
      obtain ⟨hr, rfl⟩ : w + 2 ^ k - 1 = r ∧ s.rd.pos.toNat + k + 1 + k = p := by
        simpa [hp, ht] using h
      obtain ⟨v, hv, hcode, hzeros, hvalue⟩ := codeAt_of_suffix hj hzero hone
      obtain rfl : v = r := by rw [← hr, ← hvalue, (takeEach_ok ht).1]
      have hbits : codeBits v = 2 * k + 1 := by rw [codeBits, hzeros]
      exact ⟨hv, hcode, by omega, by omega⟩

/-- The 32nd zero bit ends the loop over the zeros, whatever follows (R171). -/
theorem uePrefix_thirtyTwoZeros {s : State} (hz : s.zerosAhead 32) :
    s.uePrefix Config.ueZeroCap s.rd.pos.toNat 0 = .error .decodeError := by
  obtain ⟨hcap, hadm, hbit⟩ := hz 31 (by omega)
  have htake : s.take (s.rd.pos.toNat + 31) 1 = .ok 0 := by rw [take_one hcap hadm, hbit]; rfl
  rw [uePrefix_zeros s _ _ _ 31 (by decide) fun x hx => hz x (by omega), ueZeroCap_sub (by omega),
    State.uePrefix, htake]
  rfl

/-! ## The two commands -/

/-- Both decoders deliver the value of the code that is decoded (R170, R175). -/
theorem exec_of_ueCode_ok {s : State} {r p : Nat} (h : s.ueCode = .ok (r, p)) :
    exec .rdUe s = .next (finish .ok (s.deliver (BitVec.ofNat 32 r) p)) ∧
      exec .rdSe s = .next (finish .ok (s.deliver (BitVec.ofInt 32 (seValue r)) p)) := by
  have hue : exec .rdUe s = execRdUe s := rfl
  have hse : exec .rdSe s = execRdSe s := rfl
  rw [hue, hse, execRdUe, execRdSe, h]
  exact ⟨rfl, rfl⟩

/-- What RD.UE can do: it raises, and RD.SE with it, or it delivers a code (R170, R175). -/
theorem exec_rdUe_cases {s t : State} (h : exec .rdUe s = .next t) :
    (t.status.code ≠ .ok ∧ exec .rdSe s = .next t) ∨
      ∃ r p, s.ueCode = .ok (r, p) ∧ t = finish .ok (s.deliver (BitVec.ofNat 32 r) p) := by
  cases hc : s.ueCode with
  | error c =>
    obtain ⟨hue, hse⟩ := raises_of_ueCode_error hc
    obtain rfl : takeError c s = t := by simpa [Raises, h] using hue.symm
    refine .inl ⟨?_, hse⟩
    rcases ueCode_error hc with rfl | rfl <;> simp
  | ok x => exact .inr ⟨x.1, x.2, rfl, by simpa [h] using (exec_of_ueCode_ok hc).1⟩

/-! ## Signed values -/

/-- The mapping of R175 undoes the one of R133. -/
theorem seValue_seCodeNum (v : Int) : seValue (seCodeNum v) = v := by
  unfold seCodeNum seValue
  split
  case isTrue hpos => rw [if_pos (by omega)]; omega
  case isFalse hneg => rw [if_neg (by omega)]; omega

/-- The signed values of R176 have code values up to 2^32 - 2. -/
theorem seCodeNum_le {v : Int} (hlo : -(2 ^ 31 - 1) ≤ v) (hhi : v ≤ 2 ^ 31 - 1) :
    seCodeNum v ≤ 2 ^ 32 - 2 := by
  unfold seCodeNum
  split
  case isTrue => omega
  case isFalse => omega

end Sys2Proof.Machine
end

section
/-! A code that wr.ue writes: k zero bits, then the k + 1 bits of v + 1 (30_encoding.md R132). -/

namespace Sys2Proof.Machine

open Sys2Proof.Safety

/-- Every byte that holds one of the bits is admitted (R82). -/
theorem admitsAll_bitSpan_iff {p : Platform} {base q n : Nat} :
    p.admitsAll (bitSpan base q n) = true ↔ ∀ j, j < n → p.admits (base + (q + j) / 8) = true := by
  refine ⟨fun h j hj => admitted_bit h hj, fun h => Platform.admitsAll_iff.mpr fun a hlo hhi => ?_⟩
  obtain ⟨j, hj, rfl⟩ := bitSpan_holds_iff.mp (Region.holds_iff.mpr ⟨hlo, hhi⟩)
  exact h j hj

/-- Two adjacent admitted spans are one admitted span. -/
theorem admitsAll_bitSpan_append {p : Platform} {base q m n : Nat}
    (h1 : p.admitsAll (bitSpan base q m) = true) (h2 : p.admitsAll (bitSpan base (q + m) n) = true) :
    p.admitsAll (bitSpan base q (m + n)) = true := by
  rw [admitsAll_bitSpan_iff] at *
  intro j hj
  by_cases hm : j < m
  · exact h1 j hm
  · have := h2 (j - m) (by omega)
    rwa [show q + m + (j - m) = q + j by omega] at this

/-- Between s and s1 the zeros of a code are written, and the platform is the same. -/
structure WroteZeros (s s1 : State) (k : Nat) : Prop where
  emitted : EmittedBits s s1 k fun _ => false
  pos : s1.wr.pos.toNat = s.wr.pos.toNat + k
  admitted : s.plat.admitsAll (s.outSpan k) = true
  plat : s1.plat = s.plat

/-- A code without zeros needs no first command (R132). -/
theorem wroteZeros_none {s s1 : State} (hm : s.mem.wf = true) (hmem : s1.mem = s.mem)
    (hwr : s1.wr = s.wr) (hplat : s1.plat = s.plat) : WroteZeros s s1 0 where
  emitted :=
    { wrote := fun _ hj => absurd hj (Nat.not_lt_zero _)
      otherBits := fun _ _ => by rw [hmem]
      otherBytes := fun _ _ => by rw [hmem]
      canonical := by rw [hmem, hm]
      cursor := by rw [hwr, Nat.add_zero, BitVec.ofNat_toNat, BitVec.setWidth_eq] }
  pos := by rw [hwr, Nat.add_zero]
  admitted := admitsAll_outSpan_zero s
  plat := hplat

/-- WR.BITS k with operand 0 writes the zeros (R132, R152). -/
theorem wroteZeros_of_wrBits {s t s1 : State} {k : Nat} (hm : s.mem.wf = true) (hk : k < 32)
    (hA : s.latA = 0) (ht : exec (.wrBits (BitVec.ofNat 6 k)) s = .next t) (hok : t.status.code = .ok)
    (hmem : s1.mem = t.mem) (hwr : s1.wr = t.wr) (hplat : s1.plat = t.plat) : WroteZeros s s1 k := by
  have hn : (BitVec.ofNat 6 k).toNat = k := by rw [BitVec.toNat_ofNat]; omega
  obtain ⟨hcap, hadm, hem⟩ :=
    emitted_of_ok (wrBits_endsInEmission hm (wrBits_legal_of_ok ht hok)) ht hok
  rw [hn] at hcap hadm hem
  obtain ⟨hwrote, hbits, hbytes, hwf, hcur⟩ := hem
  obtain ⟨-, -, -, -, -, htplat, -⟩ := Proofs.commandsKeepHostRegisters _ _ _ ht
  refine ⟨⟨fun j hj => ?_, ?_, ?_, ?_, ?_⟩, ?_, hadm, hplat.trans htplat⟩
  · rw [hmem, hwrote j hj, hA]
    exact BitVec.getLsbD_zero
  · rwa [hmem]
  · rwa [hmem]
  · rwa [hmem]
  · rw [hwr, hcur]
  · rw [hwr, hcur, toNat_ofNat_of_le hcap]

/-- The zeros, and the k + 1 bits of v + 1 after them, are the code of v (R132, R172). -/
theorem WroteZeros.codeAt {s s1 s2 : State} {v : Nat} (hz : WroteZeros s s1 (codeZeros v))
    (hv : v ≤ 2 ^ 32 - 2) (hA : s1.latA = BitVec.ofNat 32 (v + 1))
    (he : EmittedBits s1 s2 (codeZeros v + 1) fun j => s1.latA.getLsbD (codeZeros v + 1 - 1 - j)) :
    CodeAt s2.mem s.wr.base.toNat s.wr.pos.toNat v := by
  have hbase : s1.wr.base = s.wr.base := by rw [hz.emitted.cursor]
  have hk := codeZeros_lt hv
  constructor
  · intro j hj
    rw [← hz.emitted.wrote j hj, ← hbase]
    exact he.otherBits _ (.inl (by rw [hz.pos]; omega))
  · intro j hj
    rw [← hbase, ← hz.pos, he.wrote j (by omega), hA, BitVec.getLsbD_ofNat,
      decide_eq_true (by omega), Bool.true_and]
    rfl

/-- The second command of wr.ue leaves the code of v in admitted bytes, and WR_POS after it (R132). -/
theorem WroteZeros.code_written {s s1 s2 : State} {v : Nat} (hz : WroteZeros s s1 (codeZeros v))
    (hv : v ≤ 2 ^ 32 - 2) (hA : s1.latA = BitVec.ofNat 32 (v + 1))
    (h2 : exec (.wrBits (BitVec.ofNat 6 (codeZeros v + 1))) s1 = .next s2) (hok : s2.status.code = .ok) :
    CodeAt s2.mem s.wr.base.toNat s.wr.pos.toNat v ∧
      s2.wr.pos.toNat = s.wr.pos.toNat + codeBits v ∧
      s.plat.admitsAll (s.outSpan (codeBits v)) = true := by
  have hk := codeZeros_lt hv
  have hn : (BitVec.ofNat 6 (codeZeros v + 1)).toNat = codeZeros v + 1 := by
    rw [BitVec.toNat_ofNat]; omega
  have hbits : codeBits v = codeZeros v + (codeZeros v + 1) := by rw [codeBits]; omega
  obtain ⟨hcap, hadm, hem⟩ :=
    emitted_of_ok (wrBits_endsInEmission hz.emitted.canonical (wrBits_legal_of_ok h2 hok)) h2 hok
  rw [hn] at hcap hadm hem
  have hbase : s1.wr.base = s.wr.base := by rw [hz.emitted.cursor]
  rw [State.outSpan, hz.plat, hbase, hz.pos] at hadm
  refine ⟨hz.codeAt hv hA hem, ?_, ?_⟩
  · rw [hem.cursor, toNat_ofNat_of_le hcap, hz.pos, hbits, Nat.add_assoc]
  · rw [hbits]
    exact admitsAll_bitSpan_append hz.admitted hadm

end Sys2Proof.Machine
end

section
/-! The statements about the exp-Golomb decoder (42_expgolomb.md). -/

namespace Sys2Proof.Proofs

open Sys2Proof.Machine Sys2Proof.Safety

/-- Settles O24. -/
theorem rdUeDecodesEveryCode : Obligations.RdUeDecodesEveryCode :=
  fun _ _ hv hcode hcap hadm => (exec_of_ueCode_ok (ueCode_of_codeAt hv hcode hcap hadm)).1

/-- Settles O25. -/
theorem rdUeReturnsOnlyCodeValues : Obligations.RdUeReturnsOnlyCodeValues := by
  intro s t ht hok
  obtain ⟨hbad, -⟩ | ⟨v, p, hdec, rfl⟩ := exec_rdUe_cases ht
  · exact absurd hok hbad
  · obtain ⟨hv, hcode, rfl, hcap⟩ := codeAt_of_ueCode hdec
    exact ⟨v, hv, hcode, hcap, rfl⟩

/-- Settles O26. -/
theorem thirtyTwoZerosRaiseDecodeError : Obligations.ThirtyTwoZerosRaiseDecodeError := by
  intro s hcap hadm hzero
  exact raises_of_ueCode_error (ueCode_of_uePrefix_error
    (uePrefix_thirtyTwoZeros (zerosAhead_of_span (by omega) le_rfl hadm hzero)))

/-- Settles O28: the value decoded is below 2^32, so RESULT holds it whole. -/
theorem rdSeMapsTheUnsignedValue : Obligations.RdSeMapsTheUnsignedValue := by
  intro s t ht
  obtain ⟨hbad, hse⟩ | ⟨r, p, hdec, rfl⟩ := exec_rdUe_cases ht
  · exact ⟨fun _ => hse, fun hok => absurd hok hbad⟩
  · obtain ⟨hr, -⟩ := codeAt_of_ueCode hdec
    have hresult : (BitVec.ofNat 32 r).toNat = r := by rw [BitVec.toNat_ofNat]; omega
    refine ⟨fun hbad => absurd rfl hbad, fun _ => ?_⟩
    rw [(exec_of_ueCode_ok hdec).2, finish_result, deliver_result, hresult]
    rfl

/-- Settles O29: the code of the signed value is a code of R172, and R175 gives the value back. -/
theorem rdSeDecodesEveryCode : Obligations.RdSeDecodesEveryCode := by
  intro s v hlo hhi hcode hcap hadm
  rw [(exec_of_ueCode_ok (ueCode_of_codeAt (seCodeNum_le hlo hhi) hcode hcap hadm)).2,
    seValue_seCodeNum]
  rfl

/-- Settles O33: the two writes leave the code of v where the reader stands, and O24 and O29 read it. -/
theorem writtenCodeIsReadBack : Obligations.WrittenCodeIsReadBack := by
  intro s s1 s2 u v hm hv hzeros hA h2 hok hkept hplat hbase hpos hcap
  have hz : WroteZeros s s1 (codeZeros v) := by
    split at hzeros
    case isTrue hk =>
      obtain ⟨hmem, hwr, hplat1⟩ := hzeros
      exact hk ▸ wroteZeros_none hm hmem hwr hplat1
    case isFalse =>
      obtain ⟨hA0, t, ht, htok, hmem, hwr, hplat1⟩ := hzeros
      exact wroteZeros_of_wrBits hm (codeZeros_lt hv) hA0 ht htok hmem hwr hplat1
  obtain ⟨hcode, hwrpos, hadm⟩ := hz.code_written hv hA h2 hok
  have hend : s2.wr.pos = BitVec.ofNat 32 (u.rd.pos.toNat + codeBits v) := by
    rw [hpos, ← hwrpos, BitVec.ofNat_toNat, BitVec.setWidth_eq]
  have hcode' : CodeAt u.mem u.rd.base.toNat u.rd.pos.toNat v := by
    rw [hbase, hpos]
    exact codeAt_of_same_bits hcode hkept
  have hadm' : u.plat.admitsAll (u.inSpan (codeBits v)) = true := by
    rw [State.inSpan, hplat, hbase, hpos]
    exact hadm
  refine ⟨hwrpos, hend ▸ rdUeDecodesEveryCode u v hv hcode' hcap hadm', fun x hlo hhi hx => ?_⟩
  subst hx
  rw [hend]
  exact rdSeDecodesEveryCode u x hlo hhi hcode' hcap hadm'

end Sys2Proof.Proofs
end

section
/-! The source range and the start-code search (30_encoding.md R127, 43_nal_split.md R190, R191): the checks that
SC.FIND and SPL.INIT share, and the one case that FindSC falls into. -/

namespace Sys2Proof.Machine

open Sys2Proof.Safety

/-- A command that first checks its source range raises what those checks find, and does the rest of its
work otherwise (R88, R82). -/
theorem sourceChecks_then {i : Instr} {s : State} {e : Ending} {p : Prop}
    (he : exec i s = Ending.settle s
      (if !s.sourceFits then .raise .illegalOperand
      else if !s.sourceAdmitted then .raise .busError else e))
    (hp : exec i s = Ending.settle s e → p) :
    if 2 ^ 32 ≤ s.latA.toNat + s.latB.toNat then Raises i s .illegalOperand
    else if s.plat.admitsAll s.source = false then Raises i s .busError
    else p := by
  have hfits : s.sourceFits = true ↔ s.latA.toNat + s.latB.toNat < 2 ^ 32 := sourceFits_iff
  split
  case isTrue hbig =>
    rw [Raises, he, Bool.eq_false_iff.mpr (hfits.not.mpr (Nat.not_lt.mpr hbig))]
    rfl
  case isFalse hsmall =>
    rw [hfits.mpr (Nat.not_le.mp hsmall)] at he
    split
    case isTrue hbad =>
      rw [Raises, he, State.sourceAdmitted, hbad]
      rfl
    case isFalse hadm =>
      rw [State.sourceAdmitted, Bool.eq_true_of_not_eq_false hadm] at he
      exact hp he

/-- A range has a first start code or none (R191). -/
theorem firstStartCode_or_none (m : Memory) {a e : Nat} (h : a ≤ e) :
    (∃ q, FirstStartCode m a e q) ∨ NoStartCode m a e := by
  obtain ⟨n, rfl⟩ := Nat.exists_eq_add_of_le h
  cases hf : m.findSC a n with
  | none => exact .inr (findSC_eq_none_iff.mp hf)
  | some q => exact .inl ⟨q, findSC_eq_some_iff.mp hf⟩

/-- Split from the first start code of the range (R193). -/
theorem split_of_firstStartCode {m : Memory} {a e q : Nat} (h : FirstStartCode m a e q) :
    m.split a e = m.unitsIn (q + 3) e := by
  have hle : a + (e - a) = e := by have := h.1; have := h.2.1; omega
  rw [Memory.split, findSC_eq_some_iff.mpr (hle.symm ▸ h)]

/-- A range without a start code has no unit (R193). -/
theorem split_of_noStartCode {m : Memory} {a e : Nat} (hle : a ≤ e) (h : NoStartCode m a e) :
    m.split a e = [] := by
  rw [Memory.split, findSC_eq_none_iff.mpr (by rwa [Nat.add_sub_cancel' hle])]

/-- The units of a range are the trimmed units that follow a start code of it (R193, R194). -/
theorem mem_split_iff (m : Memory) {lo e : Nat} (hle : lo ≤ e) (a n : Nat) :
    (a, n) ∈ m.split lo e ↔ AfterStartCode m lo a ∧ TrimmedUnit m e a n := by
  obtain ⟨q, hq⟩ | hno := firstStartCode_or_none m hle
  · rw [split_of_firstStartCode hq, mem_unitsIn_iff]
    constructor
    · intro hu
      have hbounds := unitAhead_bounds hu
      obtain ⟨hstart, htrim⟩ := (unitAhead_step hq).mpr (.inr hu)
      exact ⟨hstart.resolve_left (by have := hq.1; omega), htrim⟩
    · rintro ⟨hafter, htrim⟩
      refine ((unitAhead_step hq).mp ⟨.inr hafter, htrim⟩).resolve_left ?_
      rintro ⟨rfl, -⟩
      have := hafter.1
      omega
  · rw [split_of_noStartCode hle hno]
    refine iff_of_false List.not_mem_nil fun ⟨⟨hlo, hcode⟩, htrim⟩ => ?_
    have hbounds := unitAhead_bounds ⟨.inl rfl, htrim⟩
    exact hno _ (by omega) (by omega) hcode

/-- The split lists its units by rising address. -/
theorem split_pairwise (m : Memory) {lo e : Nat} (hle : lo ≤ e) :
    (m.split lo e).Pairwise fun u v => u.1 < v.1 := by
  obtain ⟨q, hq⟩ | hno := firstStartCode_or_none m hle
  · rw [split_of_firstStartCode hq]
    exact unitsIn_pairwise m _ _
  · rw [split_of_noStartCode hle hno]
    exact List.Pairwise.nil

end Sys2Proof.Machine
end

section
/-! SPL.NEXT (43_nal_split.md R198): where its scan stops, the unit it returns, and the units it leaves. -/

namespace Sys2Proof.Machine

open Sys2Proof.Safety

/-! ## The units left -/

theorem unitsLeft_inactive {s : State} (h : s.spl.active = false) : unitsLeft s = [] := by
  simp [unitsLeft, h]

theorem unitsLeft_active {s : State} (h : s.spl.active = true) :
    unitsLeft s = s.mem.unitsIn s.spl.cur.toNat s.spl.stop.toNat := by
  simp [unitsLeft, h]

theorem mem_unitsLeft_iff {s : State} (h : s.spl.active = true) (a n : Nat) :
    (a, n) ∈ unitsLeft s ↔ UnitAhead s.mem s.spl.cur.toNat s.spl.stop.toNat a n := by
  rw [unitsLeft_active h, mem_unitsIn_iff]

/-- The units left lie inside the range the splitter has still to scan. -/
theorem unitsLeft_bounds {s : State} {a n : Nat} (h : (a, n) ∈ unitsLeft s) :
    s.spl.cur.toNat ≤ a ∧ 1 ≤ n ∧ a + n ≤ s.spl.stop.toNat := by
  cases hact : s.spl.active with
  | false => simp [unitsLeft_inactive hact] at h
  | true => exact unitAhead_bounds ((mem_unitsLeft_iff hact a n).mp h)

/-- The first of the units left has the smallest address. -/
theorem unitsLeft_head_le {s : State} {u : Nat × Nat} {rest : List (Nat × Nat)}
    (h : unitsLeft s = u :: rest) {v : Nat × Nat} (hv : v ∈ unitsLeft s) : u.1 ≤ v.1 := by
  cases hact : s.spl.active with
  | false => simp [unitsLeft_inactive hact] at h
  | true =>
    have hrising := unitsIn_pairwise s.mem s.spl.cur.toNat s.spl.stop.toNat
    rw [← unitsLeft_active hact, h] at hrising
    rw [h] at hv
    obtain rfl | hrest := List.mem_cons.mp hv
    · exact le_rfl
    · exact Nat.le_of_lt (List.rel_of_pairwise_cons hrising hrest)

/-- The units left depend on the splitter and the bytes it has still to scan (R199). -/
theorem unitsLeft_congr {s t : State} (hspl : t.spl = s.spl)
    (h : ∀ x, s.spl.cur.toNat ≤ x → x < s.spl.stop.toNat → t.mem.read x = s.mem.read x) :
    unitsLeft t = unitsLeft s := by
  rw [unitsLeft, unitsLeft, hspl, unitsIn_congr h]

/-! ## The scan -/

/-- The splitter where SPL.NEXT's scan leaves it (R198). -/
def State.splScanned (s : State) : Splitter :=
  { s.spl with cur := BitVec.ofNat 32 s.scan.cur, active := s.scan.active }

theorem scan_cur_le (s : State) : s.scan.cur ≤ s.spl.stop.toNat := by
  obtain ⟨-, hscan⟩ | ⟨a, n, -, -, hhi, ⟨-, -, hscan⟩ | ⟨q, hq, -, hscan⟩⟩ := scan_cases s
  · rw [hscan]
  · rw [hscan]
  · rw [hscan]
    have := (findSC_some hq).2.1
    simp only
    omega

/-- The scan does not go back. -/
theorem le_scan_cur {s : State} {lo : Nat} (hcur : lo ≤ s.spl.cur.toNat) (hstop : lo ≤ s.spl.stop.toNat) :
    lo ≤ s.scan.cur := by
  obtain ⟨-, hscan⟩ | ⟨a, n, -, hlo, -, ⟨-, -, hscan⟩ | ⟨q, hq, -, hscan⟩⟩ := scan_cases s
  · rwa [hscan]
  · rwa [hscan]
  · rw [hscan]
    have := (findSC_some hq).1
    simp only
    omega

theorem splScanned_cur_toNat (s : State) : s.splScanned.cur.toNat = s.scan.cur :=
  toNat_ofNat_of_le (scan_cur_le s)

/-- The scan of an active splitter finds the first of the units left. -/
theorem scan_unit {s : State} (h : s.spl.active = true) : s.scan.unit = (unitsLeft s).head? := by
  rw [unitsLeft_active h]
  obtain ⟨hu, hscan⟩ | ⟨a, n, -, -, -, ⟨-, hu, hscan⟩ | ⟨q, -, hu, hscan⟩⟩ := scan_cases s
  · rw [hscan, hu]; rfl
  · rw [hscan, hu]; rfl
  · rw [hscan, hu]; rfl

/-- The scan leaves all the units but the first. -/
theorem unitsLeft_splScanned {s t : State} (h : s.spl.active = true) (hmem : t.mem = s.mem)
    (hspl : t.spl = s.splScanned) : unitsLeft t = (unitsLeft s).tail := by
  rw [unitsLeft_active h, unitsLeft, hspl, splScanned_cur_toNat, hmem]
  unfold State.splScanned
  obtain ⟨hu, hscan⟩ | ⟨a, n, -, -, -, ⟨-, hu, hscan⟩ | ⟨q, -, hu, hscan⟩⟩ := scan_cases s
  · rw [hscan, hu]; rfl
  · rw [hscan, hu]; rfl
  · rw [hscan, hu]; rfl

/-- After a unit at a the scan stops just after the next start code. -/
theorem scan_of_firstStartCode {s : State} {a n q : Nat} (hunit : s.scan.unit = some (a, n))
    (h : FirstStartCode s.mem a s.spl.stop.toNat q) : s.scan.cur = q + 3 ∧ s.scan.active = true := by
  have hsome : s.mem.findSC a (s.spl.stop.toNat - a) = some q :=
    findSC_eq_some_iff.mpr (by rwa [Nat.add_sub_cancel' (by have := h.1; have := h.2.1; omega)])
  obtain ⟨-, hscan⟩ | ⟨a', n', -, -, -, ⟨hno, -, hscan⟩ | ⟨q', hq, -, hscan⟩⟩ := scan_cases s
  · simp [hscan] at hunit
  · obtain ⟨rfl, rfl⟩ : a' = a ∧ n' = n := by simpa [hscan] using hunit
    simp [hno] at hsome
  · obtain ⟨rfl, rfl⟩ : a' = a ∧ n' = n := by simpa [hscan] using hunit
    obtain rfl : q' = q := by simpa [hq] using hsome
    rw [hscan]
    exact ⟨rfl, rfl⟩

/-- After the last unit the scan stops at the end, and the splitter is inactive. -/
theorem scan_of_noStartCode {s : State} {a n : Nat} (hunit : s.scan.unit = some (a, n))
    (h : NoStartCode s.mem a s.spl.stop.toNat) :
    s.scan.cur = s.spl.stop.toNat ∧ s.scan.active = false := by
  obtain ⟨-, hscan⟩ | ⟨a', n', -, -, hhi, ⟨-, -, hscan⟩ | ⟨q, hq, -, hscan⟩⟩ := scan_cases s
  · rw [hscan]; exact ⟨rfl, rfl⟩
  · rw [hscan]; exact ⟨rfl, rfl⟩
  · obtain ⟨rfl, rfl⟩ : a' = a ∧ n' = n := by simpa [hscan] using hunit
    obtain ⟨h1, h2, h3, -⟩ := findSC_eq_some_iff.mp hq
    exact absurd h3 (h q h1 (by omega))

/-- A word made of a register's value is that register. -/
theorem ofNat_toNat_word (w : Word) : BitVec.ofNat 32 w.toNat = w := by
  rw [BitVec.ofNat_toNat, BitVec.setWidth_eq]

/-- With no unit left the scan stops at the end, and the splitter is inactive. -/
theorem splScanned_of_nil {s : State} (hact : s.spl.active = true) (h : unitsLeft s = []) :
    s.splScanned = { s.spl with cur := s.spl.stop, active := false } := by
  rw [unitsLeft_active hact] at h
  obtain ⟨-, hscan⟩ | ⟨a, n, -, -, -, ⟨-, hu, -⟩ | ⟨q, -, hu, -⟩⟩ := scan_cases s
  · rw [State.splScanned, hscan, ofNat_toNat_word]
  · simp [h] at hu
  · simp [h] at hu

/-! ## The command -/

/-- An inactive splitter returns no unit (R198). -/
theorem exec_splNext_inactive {s : State} (h : s.spl.active = false) :
    exec .splNext s = .next (finish .notFound s) :=
  congrArg (Ending.settle s) (if_pos (by rw [h]; rfl))

theorem raises_splNext_of_notAdmitted {s : State} (hact : s.spl.active = true)
    (hadm : s.plat.admitsAll s.scanRegion = false) : Raises .splNext s .busError :=
  congrArg (Ending.settle s) ((if_neg (by simp [hact])).trans (if_pos (by simp [hadm])))

/-- With no unit left the splitter is inactive at the end (R198). -/
theorem exec_splNext_of_nil {s : State} (hact : s.spl.active = true)
    (hadm : s.plat.admitsAll s.scanRegion = true) (h : unitsLeft s = []) :
    exec .splNext s = .next (finish .notFound { s with spl := s.splScanned }) := by
  have hexec : exec .splNext s = execSplNext s := rfl
  have hunit : s.scan.unit = none := by rw [scan_unit hact, h]; rfl
  rw [hexec, execSplNext, if_neg (by simp [hact]), if_neg (by simp [hadm])]
  simp only [hunit]
  rfl

/-- The first of the units left is returned (R198). -/
theorem exec_splNext_of_cons {s : State} {u : Nat × Nat} {rest : List (Nat × Nat)}
    (hact : s.spl.active = true) (hadm : s.plat.admitsAll s.scanRegion = true)
    (h : unitsLeft s = u :: rest) :
    exec .splNext s =
      .next (finish .ok { s with spl := s.splScanned, nal := nalOfUnit s.mem u }) := by
  have hexec : exec .splNext s = execSplNext s := rfl
  have hunit : s.scan.unit = some u := by rw [scan_unit hact, h]; rfl
  rw [hexec, execSplNext, if_neg (by simp [hact]), if_neg (by simp [hadm])]
  simp only [hunit]
  rfl

/-- What one SPL.NEXT that meets no byte it may not read does to the units left: the first, if there is one, is
returned, and the rest stay (R198). -/
structure Advances (s t : State) : Prop where
  mem : t.mem = s.mem
  stop : t.spl.stop = s.spl.stop
  cur : ∀ lo, lo ≤ s.spl.cur.toNat → lo ≤ s.spl.stop.toNat → lo ≤ t.spl.cur.toNat
  left : unitsLeft t = (unitsLeft s).tail
  none : unitsLeft s = [] → t.status.code = .notFound
  some : ∀ u, (unitsLeft s).head? = some u → t.status.code = .ok ∧ t.nal = nalOfUnit s.mem u

/-- Every SPL.NEXT over admitted bytes, with the splitter active or not, advances it. -/
theorem splNext_advances {s t : State} (hadm : s.plat.admitsAll s.scanRegion = true)
    (ht : exec .splNext s = .next t) : Advances s t := by
  cases hact : s.spl.active with
  | false =>
    have hnil := unitsLeft_inactive hact
    obtain rfl : finish .notFound s = t := by simpa [ht] using (exec_splNext_inactive hact).symm
    exact
      { mem := rfl, stop := rfl, cur := fun _ hcur _ => hcur, none := fun _ => rfl
        left := by rw [unitsLeft_inactive (s := finish .notFound s) hact, hnil]; rfl
        some := fun u h => by simp [hnil] at h }
  | true =>
    have hcur : ∀ lo, lo ≤ s.spl.cur.toNat → lo ≤ s.spl.stop.toNat → lo ≤ s.splScanned.cur.toNat :=
      fun lo h1 h2 => by rw [splScanned_cur_toNat]; exact le_scan_cur h1 h2
    cases hleft : unitsLeft s with
    | nil =>
      have he := exec_splNext_of_nil hact hadm hleft
      obtain rfl : finish .notFound { s with spl := s.splScanned } = t := by simpa [ht] using he.symm
      exact
        { mem := rfl, stop := rfl, cur := hcur, none := fun _ => rfl
          left := unitsLeft_splScanned hact rfl rfl
          some := fun u h => by simp [hleft] at h }
    | cons u rest =>
      have he := exec_splNext_of_cons hact hadm hleft
      obtain rfl : finish .ok { s with spl := s.splScanned, nal := nalOfUnit s.mem u } = t := by
        simpa [ht] using he.symm
      refine
        { mem := rfl, stop := rfl, cur := hcur, none := fun h => by simp [hleft] at h
          left := unitsLeft_splScanned hact rfl rfl
          some := fun v h => ?_ }
      obtain rfl : u = v := by simpa [hleft] using h
      exact ⟨rfl, rfl⟩

end Sys2Proof.Machine
end

section
/-! The iterator over a range (43_nal_split.md R199): what SPL.INIT sets up, each SPL.NEXT keeps, one unit fewer. -/

namespace Sys2Proof.Machine

open Sys2Proof.Safety

/-- In t the splitter runs over the source range of s, whose bytes are as in s, and has still to return
the given units. -/
structure Iterating (s : State) (units : List (Nat × Nat)) (t : State) : Prop where
  bytes : ∀ a, s.latA.toNat ≤ a → a < s.latA.toNat + s.latB.toNat → t.mem.read a = s.mem.read a
  start : s.latA.toNat ≤ t.spl.cur.toNat
  stop : t.spl.stop.toNat = s.latA.toNat + s.latB.toNat
  left : unitsLeft t = units

/-- What happens between two commands does not matter, if the splitter and the bytes are left alone (R199). -/
theorem Iterating.resume {s t u : State} {units : List (Nat × Nat)} (h : Iterating s units t)
    (hspl : u.spl = t.spl)
    (hbytes : ∀ a, s.latA.toNat ≤ a → a < s.latA.toNat + s.latB.toNat → u.mem.read a = s.mem.read a) :
    Iterating s units u where
  bytes := hbytes
  start := by rw [hspl]; exact h.start
  stop := by rw [hspl]; exact h.stop
  left := by
    have hstart := h.start
    have hstop := h.stop
    rw [unitsLeft_congr hspl, h.left]
    intro x hlo hhi
    rw [hbytes x (by omega) (by omega), h.bytes x (by omega) (by omega)]

/-- The bytes SPL.NEXT reads are among those of the source range. -/
theorem Iterating.admitted {s t : State} {units : List (Nat × Nat)} (h : Iterating s units t)
    (hsrc : s.plat.admitsAll s.source = true) (hplat : t.plat = s.plat) :
    t.plat.admitsAll t.scanRegion = true := by
  have hstart := h.start
  have hstop := h.stop
  rw [Platform.admitsAll_iff, hplat]
  simp only [State.scanRegion]
  simp only [Platform.admitsAll_iff, State.source, State.opndA, State.opndB] at hsrc
  exact fun a hlo hhi => hsrc a (by omega) (by omega)

/-- A unit still to return has the header byte that it has in s. -/
theorem Iterating.nal {s t : State} {units : List (Nat × Nat)} (h : Iterating s units t)
    {u : Nat × Nat} (hu : u ∈ units) : nalOfUnit t.mem u = nalOfUnit s.mem u := by
  obtain ⟨hlo, hn, hhi⟩ := unitsLeft_bounds (s := t) (a := u.1) (n := u.2) (by rw [h.left]; exact hu)
  have hstart := h.start
  have hstop := h.stop
  rw [nalOfUnit, nalOfUnit, h.bytes u.1 (by omega) (by omega)]

/-- Each SPL.NEXT takes the first unit off those still to return (R198, R199). -/
theorem Iterating.next {s t t' : State} {units : List (Nat × Nat)} (h : Iterating s units t)
    (hadv : Advances t t') : Iterating s units.tail t' where
  bytes := by rw [hadv.mem]; exact h.bytes
  start := hadv.cur _ h.start (by rw [h.stop]; omega)
  stop := by rw [hadv.stop]; exact h.stop
  left := by rw [hadv.left, h.left]

end Sys2Proof.Machine
end

section
/-! The statements about the splitter (43_nal_split.md). -/

namespace Sys2Proof.Proofs

open Sys2Proof.Machine Sys2Proof.Safety

/-- Settles O34: after the checks the search answers the first start code, or none. -/
theorem scFindFindsTheFirst : Obligations.ScFindFindsTheFirst := by
  intro s
  refine sourceChecks_then rfl fun hexec => ⟨fun q hq => ?_, fun hno => ?_⟩
  · rw [hexec, findSC_eq_some_iff.mpr hq]
    rfl
  · rw [hexec, findSC_eq_none_iff.mpr hno]
    rfl

/-- Settles O35. -/
theorem splInitStartsTheSplit : Obligations.SplInitStartsTheSplit := by
  intro s
  have hend : BitVec.ofNat 32 (s.opndA + s.opndB) = s.latA + s.latB := by
    rw [BitVec.ofNat_add, ofNat_toNat_word, ofNat_toNat_word]
  refine sourceChecks_then rfl fun hexec => ⟨fun q hq => ?_, fun hno => ?_⟩
  · rw [hexec, findSC_eq_some_iff.mpr hq, hend]
    rfl
  · rw [hexec, findSC_eq_none_iff.mpr hno, hend]
    rfl

/-- Settles O36: the scan finds the first of the units left, and they are the units ahead. -/
theorem splNextReturnsTheNextUnit : Obligations.SplNextReturnsTheNextUnit := by
  intro s
  split
  case isTrue hact => exact exec_splNext_inactive hact
  case isFalse hactive =>
    have hact : s.spl.active = true := Bool.eq_true_of_not_eq_false hactive
    split
    case isTrue hbad => exact raises_splNext_of_notAdmitted hact hbad
    case isFalse hadmitted =>
      have hadm : s.plat.admitsAll s.scanRegion = true := Bool.eq_true_of_not_eq_false hadmitted
      split
      case h_1 hleft =>
        refine ⟨?_, fun a n hu => ?_⟩
        · rw [exec_splNext_of_nil hact hadm hleft, splScanned_of_nil hact hleft]
          rfl
        · simp [← mem_unitsLeft_iff hact, hleft] at hu
      case h_2 a n rest hleft =>
        have hunit : s.scan.unit = some (a, n) := by rw [scan_unit hact, hleft]; rfl
        have hmem : (a, n) ∈ unitsLeft s := by rw [hleft]; exact List.mem_cons_self
        obtain ⟨hlo, hn, hhi⟩ := unitsLeft_bounds hmem
        refine ⟨_, exec_splNext_of_cons hact hadm hleft, (mem_unitsLeft_iff hact a n).mp hmem,
          fun b l hb => unitsLeft_head_le hleft ((mem_unitsLeft_iff hact b l).mpr hb), hn, hlo, hhi,
          ?_, fun q hq => ?_, fun hno => ?_, rfl⟩
        · exact Eq.trans (unitsLeft_splScanned hact rfl rfl) (congrArg List.tail hleft)
        · obtain ⟨hcur, hstill⟩ := scan_of_firstStartCode hunit hq
          exact ⟨congrArg (BitVec.ofNat 32) hcur, hstill⟩
        · obtain ⟨hcur, hdone⟩ := scan_of_noStartCode hunit hno
          exact ⟨(congrArg (BitVec.ofNat 32) hcur).trans (ofNat_toNat_word _), hdone⟩

/-- An SPL.INIT that completes has met no byte it may not read, and starts the iterator over the split (R195). -/
theorem splInit_iterating {s t : State} (ht : exec .splInit s = .next t)
    (hcode : t.status.code = .ok ∨ t.status.code = .notFound) :
    s.plat.admitsAll s.source = true ∧
      Iterating s (s.mem.split s.latA.toNat (s.latA.toNat + s.latB.toNat)) t := by
  have hinit := splInitStartsTheSplit s
  split at hinit
  case isTrue => simp [code_of_raises hinit ht] at hcode
  case isFalse hfits =>
    have hsum : (s.latA + s.latB).toNat = s.latA.toNat + s.latB.toNat := by
      rw [BitVec.toNat_add, Nat.mod_eq_of_lt (Nat.not_le.mp hfits)]
    split at hinit
    case isTrue => simp [code_of_raises hinit ht] at hcode
    case isFalse hadm =>
      refine ⟨Bool.eq_true_of_not_eq_false hadm, ?_⟩
      obtain ⟨hfound, hnone⟩ := hinit
      obtain ⟨q, hq⟩ | hno := firstStartCode_or_none s.mem (Nat.le_add_right s.latA.toNat s.latB.toNat)
      · have hcur : (BitVec.ofNat 32 (q + 3)).toNat = q + 3 := toNat_ofNat_of_le (hsum ▸ hq.2.1)
        have hstart := hq.1
        obtain rfl := Host.Outcome.next.inj ((hfound q hq).symm.trans ht)
        exact
          { bytes := fun _ _ _ => rfl
            start := by simp only [hcur]; omega
            stop := hsum
            left := by rw [unitsLeft_active rfl, split_of_firstStartCode hq]; simp only [hcur, hsum] }
      · obtain rfl := Host.Outcome.next.inj ((hnone hno).symm.trans ht)
        exact
          { bytes := fun _ _ _ => rfl
            start := by simp only [hsum]; omega
            stop := hsum
            left := by rw [unitsLeft_inactive rfl, split_of_noStartCode (Nat.le_add_right _ _) hno] }

/-- Settles O37, by induction on the number of SPL.NEXT commands: before the j-th all but the first j units of the
split are left. -/
theorem iteratorReturnsTheSplit : Obligations.IteratorReturnsTheSplit := by
  intro s t k before after ht hcode hfirst hnext hkept hsame
  obtain ⟨hsrc, hstart⟩ := splInit_iterating ht hcode
  have hadv : ∀ {j units}, j < k → Iterating s units (before j) → Advances (before j) (after j) :=
    fun hj hit => splNext_advances (hit.admitted hsrc (hsame _ hj).1) (hnext _ hj)
  have hiter : ∀ j, j < k → Iterating s
      ((s.mem.split s.latA.toNat (s.latA.toNat + s.latB.toNat)).drop j) (before j) := by
    intro j
    induction j with
    | zero => exact fun hj => hstart.resume hfirst (hsame 0 hj).2
    | succ j ih =>
      intro hj
      have hit := ih (by omega)
      have hit' := (hit.next (hadv (by omega) hit)).resume (hkept j hj) (hsame (j + 1) hj).2
      rwa [List.tail_drop] at hit'
  have hle := Nat.le_add_right s.latA.toNat s.latB.toNat
  refine ⟨fun j u hj hu => ?_, fun j hj hlen => ?_, split_pairwise _ hle, mem_split_iff _ hle⟩
  · have hit := hiter j hj
    have hhead : (unitsLeft (before j)).head? = some u := by rw [hit.left, List.head?_drop, hu]
    obtain ⟨hok, hnal⟩ := (hadv hj hit).some u hhead
    rw [hit.left] at hhead
    exact ⟨hok, hnal.trans (hit.nal (List.mem_of_head? hhead))⟩
  · have hit := hiter j hj
    exact (hadv hj hit).none (hit.left.trans (List.drop_eq_nil_of_le hlen))

end Sys2Proof.Proofs
end

section
/-! A check at the head of a command (60_exceptions.md R266): what fails it raises, and past it the command goes on
with its other checks. -/

namespace Sys2Proof.Machine

open Sys2Proof.Safety

/-- A command that begins with a check raises its code where the check fails, and ends like the rest of its
pseudocode where it passes (R266). The check is given in the words of the model, `c`, and of a claim, `d`. -/
theorem check_then {i : Instr} {s : State} {k : Code} {e : Ending} {c d p : Prop} [Decidable c] [Decidable d]
    (hcd : c ↔ d) (he : exec i s = Ending.settle s (if c then .raise k else e))
    (hp : exec i s = Ending.settle s e → p) : if d then Raises i s k else p := by
  split
  case isTrue hfail =>
    rw [if_pos (hcd.mpr hfail)] at he
    exact he
  case isFalse hpass =>
    rw [if_neg (hcd.not.mpr hpass)] at he
    exact hp he

/-- The range check fails from 2^32 on (20_memory.md R88). -/
theorem sourceFits_fails_iff {s : State} :
    (!s.sourceFits) = true ↔ 2 ^ 32 ≤ s.latA.toNat + s.latB.toNat := by
  rw [Bool.not_eq_true', ← Bool.not_eq_true, sourceFits_iff, Nat.not_lt]

end Sys2Proof.Machine
end

section
/-! Strip (44_rbsp.md R211): one byte at a time, by position (R211), and as the sequential scan (R215). -/

namespace Sys2Proof.Machine

open Sys2Proof.Safety

/-! ## One byte -/

/-- A 03 after two 00 is dropped (R211). -/
theorem stripAfter_dropped {b2 b1 : Option Byte} {b : Byte} (rest : List Byte)
    (h : b = 3 ∧ b1 = some 0 ∧ b2 = some 0) :
    stripAfter b2 b1 (b :: rest) = stripAfter b1 (some b) rest := if_pos h

/-- Any other byte is kept (R211). -/
theorem stripAfter_kept {b2 b1 : Option Byte} {b : Byte} (rest : List Byte)
    (h : ¬ (b = 3 ∧ b1 = some 0 ∧ b2 = some 0)) :
    stripAfter b2 b1 (b :: rest) = b :: stripAfter b1 (some b) rest := if_neg h

/-! ## By position -/

/-- R211's condition on the byte b that follows the bytes `before`, these written latest first. -/
theorem stripped_next_iff (before : List Byte) (b : Byte) (rest : List Byte) :
    stripped (before.reverse ++ b :: rest) before.length = true ↔
      b = 3 ∧ before[0]? = some 0 ∧ before[1]? = some 0 := by
  match before with
  | [] => simp [stripped]
  | [x] => simp [stripped]
  | x :: y :: older =>
    have hb : (older.reverse ++ y :: x :: b :: rest)[older.length + 1 + 1]? = some b := by
      rw [List.getElem?_append_right (by simp; omega)]
      simp [Nat.add_assoc]
    simp [stripped, hb, and_assoc]

/-- The bytes of `rest`, which follows the bytes `before`, these written latest first, without those whose position
in the whole payload has a 03 after two 00 (R211). -/
def keptAfter (before rest : List Byte) : List Byte :=
  ((List.range rest.length).filter fun j =>
    !stripped (before.reverse ++ rest) (before.length + j)).map fun j => rest.getD j 0

/-- The first byte is kept or not by R211's condition, and with it before them the others are as they were. -/
theorem keptAfter_cons (before : List Byte) (b : Byte) (rest : List Byte) :
    keptAfter before (b :: rest) =
      if stripped (before.reverse ++ b :: rest) before.length then keptAfter (b :: before) rest
      else b :: keptAfter (b :: before) rest := by
  have hpos : ∀ j, stripped (before.reverse ++ b :: rest) (before.length + (j + 1)) =
      stripped ((b :: before).reverse ++ rest) ((b :: before).length + j) := by
    intro j
    simp [Nat.add_assoc, Nat.add_comm 1 j]
  unfold keptAfter
  simp only [← hpos]
  rw [List.length_cons, List.range_succ_eq_map, List.filter_cons, List.filter_map]
  cases hfirst : stripped (before.reverse ++ b :: rest) before.length <;>
    simp [Function.comp_def]

/-- Strip, which knows the two bytes before, keeps the bytes that R211 keeps by position. -/
theorem stripAfter_eq_keptAfter (before rest : List Byte) :
    stripAfter before[1]? before[0]? rest = keptAfter before rest := by
  induction rest generalizing before with
  | nil => rfl
  | cons b rest ih =>
    have hiff := stripped_next_iff before b rest
    rw [keptAfter_cons, ← ih (b :: before)]
    split
    case isTrue hdrop => exact stripAfter_dropped rest (hiff.mp hdrop)
    case isFalse hkeep => exact stripAfter_kept rest (hiff.not.mp hkeep)

/-! ## The sequential scan -/

/-- No triplet 00 00 03 that began before P, whose two bytes before are b2 and b1, ends in P. -/
structure NoTripletOpen (b2 b1 : Option Byte) (P : List Byte) : Prop where
  three : ∀ rest, P = 3 :: rest → ¬ (b1 = some 0 ∧ b2 = some 0)
  zeroThree : ∀ rest, P = 0 :: 3 :: rest → b1 ≠ some 0

/-- Where no triplet is open, the scan goes on as Strip does: a triplet's last byte is 03, so the next one shares no
zero with it (R215). -/
theorem stripAfter_eq_stripScan {b2 b1 : Option Byte} {P : List Byte} (h : NoTripletOpen b2 b1 P) :
    stripAfter b2 b1 P = stripScan P := by
  induction P using stripScan.induct generalizing b2 b1 with
  | case1 rest ih =>
    have hrest : NoTripletOpen (some 0#8) (some 3#8) rest := ⟨by simp, by simp⟩
    rw [stripScan, ← ih hrest, stripAfter_kept _ (by simp), stripAfter_kept _ (by simp),
      stripAfter_dropped _ (by simp)]
  | case2 b rest hno ih =>
    have hb : ¬ (b = 3 ∧ b1 = some 0 ∧ b2 = some 0) := by
      rintro ⟨rfl, hzeros⟩
      exact h.three rest rfl hzeros
    have hrest : NoTripletOpen b1 (some b) rest := by
      refine ⟨?_, ?_⟩
      · rintro tail rfl ⟨hb0, hb1⟩
        cases hb0
        exact h.zeroThree tail rfl hb1
      · rintro tail rfl hb0
        cases hb0
        exact hno tail rfl rfl
    rw [stripScan, ← ih hrest, stripAfter_kept rest hb]
    exact hno
  | case3 => rfl

/-- The scan keeps two bytes with each 03 it drops, the zeros it copies (R214). -/
theorem stripScan_length_bounds (P : List Byte) :
    (stripScan P).length ≤ P.length ∧ 2 * P.length ≤ 3 * (stripScan P).length := by
  induction P using stripScan.induct with
  | case1 rest ih =>
    rw [stripScan]
    simp only [List.length_cons]
    omega
  | case2 b rest hno ih =>
    rw [stripScan]
    · simp only [List.length_cons]
      omega
    · exact hno
  | case3 => simp [stripScan]

end Sys2Proof.Machine
end

section
/-! The statements about the RBSP stripper (44_rbsp.md). -/

namespace Sys2Proof.Proofs

open Sys2Proof.Machine Sys2Proof.Safety

/-- Settles O38: past its three checks the command is one emission of the stripped snapshot. -/
theorem rbspExtractEmitsTheStrippedPayload : Obligations.RbspExtractEmitsTheStrippedPayload := by
  intro s hm
  refine check_then sourceFits_fails_iff rfl fun hexec => ?_
  refine check_then Iff.rfl hexec fun hexec => ?_
  refine check_then (Bool.not_eq_true' _).to_iff hexec fun hexec => ?_
  exact emitting_endsInBytes hm hexec fun t _ => rfl

/-- Settles O39: nothing stands before the payload. -/
theorem stripDropsByPosition : Obligations.StripDropsByPosition := by
  intro payload
  exact (stripAfter_eq_keptAfter [] payload).trans (by simp [keptAfter])

/-- Settles O41: before the payload no triplet is open. -/
theorem stripAgreesWithTheScan : Obligations.StripAgreesWithTheScan :=
  fun _ => (stripAfter_eq_stripScan ⟨by simp, by simp⟩).symm

/-- Settles O40, by the count of the scan. -/
theorem stripLosesAtMostAThird : Obligations.StripLosesAtMostAThird := by
  intro payload
  obtain ⟨hle, hthird⟩ := stripScan_length_bounds payload
  rw [stripAgreesWithTheScan payload] at hle hthird
  omega

end Sys2Proof.Proofs
end

section
/-! Bytes: the big-endian bytes of a number and of a register, as bytes and bit by bit (20_memory.md R84, R85), and the
bytes of memory whose bits are known. -/

namespace Sys2Proof.Machine

open Sys2Proof.Safety

/-! ## The bits of a byte sequence -/

theorem byteBit_cons_of_lt (b : Byte) (l : List Byte) {j : Nat} (h : j < 8) :
    byteBit (b :: l) j = b.getLsbD (7 - j) := by
  rw [byteBit, Nat.div_eq_of_lt h, Nat.mod_eq_of_lt h, List.getD_cons_zero]

theorem byteBit_cons_add (b : Byte) (l : List Byte) (j : Nat) :
    byteBit (b :: l) (j + 8) = byteBit l j := by
  rw [byteBit, Nat.add_div_right j (by decide), Nat.add_mod_right, List.getD_cons_succ, byteBit]

/-- The bits of the big-endian bytes of v are those of v, the most significant first (R84, R85). -/
theorem byteBit_beBytes {n v j : Nat} (h : j < 8 * n) :
    byteBit (beBytes n v) j = v.testBit (8 * n - 1 - j) := by
  induction n generalizing j with
  | zero => omega
  | succ n ih =>
    rw [beBytes]
    by_cases hj : j < 8
    · rw [byteBit_cons_of_lt _ _ hj, BitVec.getLsbD_ofNat, Nat.testBit_div_two_pow,
        decide_eq_true (by omega), Bool.true_and]
      congr 1
      omega
    · obtain ⟨k, rfl⟩ : ∃ k, j = k + 8 := ⟨j - 8, by omega⟩
      rw [byteBit_cons_add, ih (by omega)]
      congr 1
      omega

/-- Where the bits from a byte boundary on are those of l, the bytes there are l (R85). -/
theorem Memory.bytes_eq_of_bits {m : Memory} {base q : Nat} {l : List Byte}
    (h : ∀ j, j < 8 * l.length → m.bit base (8 * q + j) = byteBit l j) :
    m.bytes (base + q) l.length = l := by
  induction l generalizing q with
  | nil => rfl
  | cons b l ih =>
    simp only [List.length_cons] at h
    have hfirst : m.read (base + q) = b := by
      refine BitVec.eq_of_getLsbD_eq fun i hi => ?_
      have hbit := h (7 - i) (by omega)
      rwa [byteBit_cons_of_lt _ _ (by omega), Memory.bit, show (8 * q + (7 - i)) / 8 = q by omega,
        show 7 - (8 * q + (7 - i)) % 8 = i by omega, show 7 - (7 - i) = i by omega] at hbit
    have hrest : m.bytes (base + (q + 1)) l.length = l := by
      refine ih fun j hj => ?_
      rw [← byteBit_cons_add b l j, ← h (j + 8) (by omega)]
      congr 1
      omega
    rw [List.length_cons, Memory.bytes, hfirst, Nat.add_assoc, hrest]

/-! ## The bytes of a register -/

/-- Eight bits of a register as a quotient. -/
theorem ofNat_div_two_pow_eq_extractLsb' {w : Nat} (x : BitVec w) (k : Nat) :
    BitVec.ofNat 8 (x.toNat / 2 ^ k) = x.extractLsb' k 8 := by
  rw [BitVec.extractLsb', Nat.shiftRight_eq_div_pow]

/-- The big-endian bytes of a register are its bytes, the highest first (R84). -/
theorem beBytes_succ_toNat {w : Nat} (x : BitVec w) (n : Nat) :
    beBytes (n + 1) x.toNat = x.extractLsb' (8 * n) 8 :: beBytes n x.toNat := by
  rw [beBytes, ofNat_div_two_pow_eq_extractLsb']

theorem beBytes_three_toNat {w : Nat} (x : BitVec w) :
    beBytes 3 x.toNat = [x.extractLsb' 16 8, x.extractLsb' 8 8, x.extractLsb' 0 8] := by
  rw [beBytes_succ_toNat, beBytes_succ_toNat, beBytes_succ_toNat]
  rfl

theorem beBytes_four_toNat {w : Nat} (x : BitVec w) :
    beBytes 4 x.toNat =
      [x.extractLsb' 24 8, x.extractLsb' 16 8, x.extractLsb' 8 8, x.extractLsb' 0 8] := by
  rw [beBytes_succ_toNat, beBytes_three_toNat]

/-- The n bytes of a number depend on its low 8n bits only (R84). -/
theorem beBytes_mod_two_pow {n m : Nat} (v : Nat) (h : 8 * n ≤ m) :
    beBytes n (v % 2 ^ m) = beBytes n v := by
  induction n with
  | zero => rfl
  | succ n ih =>
    rw [beBytes, beBytes, ih (by omega)]
    congr 1
    refine BitVec.eq_of_getLsbD_eq fun i hi => ?_
    simp only [BitVec.getLsbD_ofNat, Nat.testBit_div_two_pow, Nat.testBit_mod_two_pow]
    rw [decide_eq_true (show i + 8 * n < m by omega), Bool.true_and]

end Sys2Proof.Machine
end

section
/-! The FLV framer (45_flv_framer.md): a command that is one Emit, the bytes of each header in terms of its operands,
and what a command that completes with OK has passed and moved. -/

namespace Sys2Proof.Machine

open Sys2Proof.Safety

/-! ## Commands that are one Emit -/

/-- An Emit that writes no RESULT ends in its bytes (R158, R220). -/
theorem emit_endsInBytes {i : Instr} {s : State} {l : List Byte} (hm : s.mem.wf = true)
    (he : exec i s = Ending.settle s (s.emit l)) : EndsInBytes i s l s.result :=
  emitting_endsInBytes hm he fun _ ht => ht ▸ rfl

/-- An Emit that counts into RESULT ends in its bytes and the count (R34, R158). -/
theorem emitCounted_endsInBytes {i : Instr} {s : State} {l : List Byte} {n : Nat} {r : Word}
    (hm : s.mem.wf = true) (he : exec i s = Ending.settle s (s.emitCounted l n))
    (hr : BitVec.ofNat 32 n = r) : EndsInBytes i s l r :=
  emitting_endsInBytes hm he fun _ _ => hr ▸ rfl

/-! ## The headers -/

/-- The flags byte of R221 as a number: 4 for audio, 1 for video. -/
theorem flagsByte_eq (au vi : Bool) :
    flagsByte au vi = (if au then 4 else 0) + (if vi then 1 else 0) := by
  cases au <;> cases vi <;> rfl

theorem fileHeader_eq (au vi : Bool) : fileHeader au vi =
    [0x46, 0x4C, 0x56, 0x01, (if au then 4 else 0) + (if vi then 1 else 0),
      0x00, 0x00, 0x00, 0x09, 0x00, 0x00, 0x00, 0x00] := by
  rw [fileHeader, flagsByte_eq]
  rfl

/-- The tag header in bytes of its operands: the timestamp's high byte comes after the low three (R225, R227). -/
theorem tagHeader_eq (ty : BitVec 5) (a b : Word) : tagHeader ty a.toNat b.toNat =
    [ty.setWidth 8, a.extractLsb' 16 8, a.extractLsb' 8 8, a.extractLsb' 0 8,
      b.extractLsb' 16 8, b.extractLsb' 8 8, b.extractLsb' 0 8, b.extractLsb' 24 8,
      0x00, 0x00, 0x00] := by
  rw [tagHeader, beBytes_mod_two_pow _ (by decide), beBytes_three_toNat, beBytes_three_toNat,
    ofNat_div_two_pow_eq_extractLsb']
  rfl

theorem tagHeader_length (ty : BitVec 5) (d ts : Nat) : (tagHeader ty d ts).length = 11 := by
  simp [tagHeader, beBytes_length]

/-- The first byte of a video tag: the frame type above codec id 7 (R231). -/
theorem frameType_append_seven : ∀ ft : BitVec 4,
    ft ++ (7 : BitVec 4) = BitVec.ofNat 8 (16 * ft.toNat + 7) := by
  decide

/-- The video header with the composition time's low 24 bits (R231, R234). -/
theorem videoHeader_eq (ft : BitVec 4) (pkt : BitVec 8) (a : Word) :
    videoHeader ft pkt (a.toNat % 2 ^ 24) = [BitVec.ofNat 8 (16 * ft.toNat + 7), pkt,
      a.extractLsb' 16 8, a.extractLsb' 8 8, a.extractLsb' 0 8] := by
  rw [videoHeader, frameType_append_seven, beBytes_mod_two_pow _ (by decide), beBytes_three_toNat]
  rfl

/-- The video header of a packet that is no NALU (R233). -/
theorem videoHeader_zero (ft : BitVec 4) (pkt : BitVec 8) :
    videoHeader ft pkt 0 = [BitVec.ofNat 8 (16 * ft.toNat + 7), pkt, 0x00, 0x00, 0x00] := by
  rw [videoHeader, frameType_append_seven]
  rfl

/-- PreviousTagSize as a register value does not wrap (R245). -/
theorem toNat_add_eleven {a : Word} (h : ¬ 2 ^ 24 ≤ a.toNat) :
    (a + 11).toNat = Config.tagHeaderBytes + a.toNat := by
  rw [BitVec.toNat_add, Config.tagHeaderBytes, Nat.add_comm 11]
  exact Nat.mod_eq_of_lt (show a.toNat + 11 < 2 ^ 32 by omega)

/-! ## What an OK shows -/

theorem code_of_raises_ok {i : Instr} {s t : State} {c : Code} (h : Raises i s c)
    (ht : exec i s = .next t) (hok : t.status.code = .ok) : c = .ok :=
  (code_of_raises h ht).symm.trans hok

/-- A command that completes with OK has passed the check it begins with (R266). -/
theorem passed_of_ok {i : Instr} {s t : State} {k : Code} {e : Ending} {c : Prop} [Decidable c]
    (he : exec i s = Ending.settle s (if c then .raise k else e)) (ht : exec i s = .next t)
    (hok : t.status.code = .ok) (hk : k ≠ .ok) : ¬ c ∧ exec i s = Ending.settle s e := by
  by_cases hc : c
  · rw [if_pos hc] at he
    exact absurd (code_of_raises_ok he ht hok) hk
  · rw [if_neg hc] at he
    exact ⟨hc, he⟩

/-- An Emit that completes with OK has moved WR_POS past its bytes, inside the capacity (R49, R158). -/
theorem emit_wr_of_ok {i : Instr} {s t : State} {l : List Byte}
    (he : exec i s = Ending.settle s (s.emit l)) (ht : exec i s = .next t)
    (hok : t.status.code = .ok) :
    t.wr.base = s.wr.base ∧ t.wr.pos.toNat = s.wr.pos.toNat + 8 * l.length := by
  have hraised : ∀ {c}, s.emit l = .raise c → c = .ok := fun hend =>
    code_of_raises_ok (he.trans (congrArg (Ending.settle s) hend)) ht hok
  obtain ⟨-, hend⟩ | ⟨-, -, hend⟩ | ⟨hcap, -, hend⟩ := emitting_cases s (bytesBits l) id
  · exact absurd (hraised hend) (by decide)
  · exact absurd (hraised hend) (by decide)
  · rw [State.emit, hend, ht] at he
    obtain rfl := Host.Outcome.next.inj he
    refine ⟨rfl, (toNat_ofNat_of_le hcap).trans ?_⟩
    rw [bytesBits_length]

/-- FLV.THDR that completes with OK has moved WR_POS by its 11 bytes (R225). -/
theorem flvThdr_wr_of_ok {ty : BitVec 5} {s t : State} (ht : exec (.flvThdr ty) s = .next t)
    (hok : t.status.code = .ok) :
    t.wr.base = s.wr.base ∧ t.wr.pos.toNat = s.wr.pos.toNat + 8 * 11 := by
  obtain ⟨-, hexec⟩ := passed_of_ok rfl ht hok (by decide)
  obtain ⟨-, hexec⟩ := passed_of_ok hexec ht hok (by decide)
  have hwr := emit_wr_of_ok hexec ht hok
  rwa [tagHeader_length] at hwr

/-- FLV.TRAILER that completes with OK has written BE_4(11 + dataSize) at WR_POS and moved past it (R245). -/
theorem flvTrailer_wrote_of_ok {s t : State} (hm : s.mem.wf = true)
    (ht : exec .flvTrailer s = .next t) (hok : t.status.code = .ok) :
    s.latA.toNat < 2 ^ 24 ∧ t.wr.pos.toNat = s.wr.pos.toNat + 32 ∧
      ∀ j, j < 32 → t.mem.bit s.wr.base.toNat (s.wr.pos.toNat + j) =
        byteBit (beBytes 4 (11 + s.latA.toNat)) j := by
  obtain ⟨hlegal, hexec⟩ := passed_of_ok rfl ht hok (by decide)
  obtain ⟨-, -, hem⟩ := emitted_of_ok (emit_endsInBytes hm hexec) ht hok
  exact ⟨Nat.not_le.mp hlegal, (emit_wr_of_ok hexec ht hok).2, hem.wrote⟩

end Sys2Proof.Machine
end

section
/-! The statements about the FLV framer (45_flv_framer.md). -/

namespace Sys2Proof.Proofs

open Sys2Proof.Machine Sys2Proof.Safety

/-! ## The headers -/

/-- Settles O42. -/
theorem flvFhdrEmitsTheFileHeader : Obligations.FlvFhdrEmitsTheFileHeader := by
  intro au vi s hm
  rw [← fileHeader_eq]
  exact emit_endsInBytes hm rfl

/-- Settles O43. -/
theorem flvThdrEmitsTheTagHeader : Obligations.FlvThdrEmitsTheTagHeader := by
  intro ty s hm
  rw [← tagHeader_eq]
  refine check_then Iff.rfl rfl fun hexec => ?_
  exact check_then Iff.rfl hexec (emit_endsInBytes hm)

/-- Settles O44. -/
theorem flvAhdrEmitsTheAudioHeader : Obligations.FlvAhdrEmitsTheAudioHeader :=
  fun _ _ hm => check_then Iff.rfl rfl (emit_endsInBytes hm)

/-- Settles O45: past the packet type, the command goes on by whether the packet is a NALU. -/
theorem flvVhdrEmitsTheVideoHeader : Obligations.FlvVhdrEmitsTheVideoHeader := by
  intro ft pkt s hm
  rw [← videoHeader_eq, ← videoHeader_zero]
  refine check_then Iff.rfl rfl fun hexec => ?_
  have hnalu : pkt.toNat = 1 ↔ pkt = 1 := BitVec.toNat_inj (y := 1)
  split
  case isTrue h =>
    rw [if_pos (hnalu.mpr h)] at hexec
    exact check_then Iff.rfl hexec (emit_endsInBytes hm)
  case isFalse h =>
    rw [if_neg (hnalu.not.mpr h)] at hexec
    exact emit_endsInBytes hm hexec

/-- Settles O49. -/
theorem flvTrailerEmitsTheTagSize : Obligations.FlvTrailerEmitsTheTagSize := by
  intro s hm
  split
  case isTrue hbad => exact congrArg (Ending.settle s) (if_pos hbad)
  case isFalse hlegal =>
    rw [← beBytes_four_toNat, toNat_add_eleven hlegal]
    exact emit_endsInBytes hm (congrArg (Ending.settle s) (if_neg hlegal))

/-! ## The bodies -/

/-- Settles O46. -/
theorem flvPayloadCopiesTheBytes : Obligations.FlvPayloadCopiesTheBytes := by
  intro s hm
  refine sourceChecks_then rfl fun hexec => ?_
  exact emitCounted_endsInBytes hm hexec (by simp)

/-- Settles O47: RESULT is B + 4 as a register adds. -/
theorem flvPnalPrefixesTheLength : Obligations.FlvPnalPrefixesTheLength := by
  intro s hm
  rw [← beBytes_four_toNat]
  refine sourceChecks_then rfl fun hexec => ?_
  exact emitCounted_endsInBytes hm hexec (by bv_omega)

/-- Settles O48: the size check, which comes before admission, keeps B - 7 from wrapping. -/
theorem flvPadtsStripsSevenBytes : Obligations.FlvPadtsStripsSevenBytes := by
  intro s hm
  refine check_then sourceFits_fails_iff rfl fun hexec => ?_
  split
  case isTrue hshort =>
    rw [if_pos hshort] at hexec
    exact hexec
  case isFalse hlong =>
    rw [if_neg hlong] at hexec
    refine check_then (Bool.not_eq_true' _).to_iff hexec fun hexec => ?_
    refine emitCounted_endsInBytes hm hexec ?_
    show BitVec.ofNat 32 (s.latB.toNat - 7) = s.latB - 7
    bv_omega

/-! ## The tag -/

/-- Settles O50: the trailer's 32 bits stand 11 + d bytes after the start of the tag. -/
theorem tagOccupiesItsSize : Obligations.TagOccupiesItsSize := by
  intro ty s t u v ht htok hm hbase hpos hA hv hvok
  obtain ⟨hbaset, hpost⟩ := flvThdr_wr_of_ok ht htok
  obtain ⟨hsize, hposv, hbits⟩ := flvTrailer_wrote_of_ok hm hv hvok
  have hstart : u.wr.pos.toNat = s.wr.pos.toNat + 8 * (11 + s.latA.toNat) := by omega
  rw [hbase, hbaset, hstart, hA] at hbits
  refine ⟨by omega, ?_, fun haligned => ?_⟩
  · rw [Memory.readBits_eq_mod fun j hj => (hbits j hj).trans (byteBit_beBytes hj)]
    rw [hA] at hsize
    omega
  · have hbytes := Memory.bytes_eq_of_bits (m := v.mem) (base := s.wr.base.toNat)
      (q := s.wr.pos.toNat / 8 + 11 + s.latA.toNat) (l := beBytes 4 (11 + s.latA.toNat))
      fun j hj => by
        rw [show 8 * (s.wr.pos.toNat / 8 + 11 + s.latA.toNat) =
          s.wr.pos.toNat + 8 * (11 + s.latA.toNat) by omega]
        exact hbits j (by rwa [beBytes_length] at hj)
    rwa [beBytes_length, ← Nat.add_assoc, ← Nat.add_assoc] at hbytes

end Sys2Proof.Proofs
end

section
/-! How a command ends (60_exceptions.md): a code of its row (R261), and what a raise leaves of the state, with
and without a race (R264, R302). -/

namespace Sys2Proof.Machine

open Sys2Proof.Safety

/-! ## The codes of a command -/

/-- The code a command completes with is in its row of the table (R261). -/
theorem complete_mayEnd {i : Instr} {s u : State} {c : Code} (h : CommandEnding i s (.complete c u)) :
    mayEnd i c = true := by
  cases h with
  | same _ _ hc | deliver _ _ _ _ hc | skip _ _ hc | emit _ _ _ _ hc => exact hc
  | rdInit hi | wrInit hi | find _ hi | splNone _ hi | splSome _ _ hi => rw [hi]; rfl
  | splInit _ _ hi hc => obtain rfl | rfl := hc <;> rw [hi] <;> rfl

/-- The code a command raises is in its row of the table (R261). -/
theorem raise_mayEnd {i : Instr} {s : State} {c : Code} (h : CommandEnding i s (.raise c)) :
    mayEnd i c = true := by
  cases h with
  | raise _ _ _ hc => exact hc

/-! ## What a raise keeps -/

/-- A command whose code is that of an error has raised it (R260). -/
theorem exec_of_errorCode {i : Instr} {s t : State} (h : exec i s = .next t)
    (hok : t.status.code ≠ .ok) (hnf : t.status.code ≠ .notFound) : ∃ c, t = takeError c s := by
  obtain ⟨c, u, hu, rfl⟩ | ⟨c, -, rfl⟩ := exec_next_cases h
  · exact absurd (complete_code hu) (not_or.mpr ⟨hok, hnf⟩)
  · exact ⟨c, rfl⟩

/-- A command that raises writes no byte (R82, R264). -/
theorem writeSet_len_of_raises {i : Instr} {s : State} {c : Code} (h : Raises i s c) :
    (writeSet i s).len = 0 := by
  have hbits : bitsEmitted i s = 0 := by rw [bitsEmitted_eq h, takeError_wr, Nat.sub_self]
  rw [writeSet, hbits]
  rfl

/-- The free values after a race are none of STATUS (R302). -/
theorem settleRace_status {r : Region} {u t : State} (h : settleRace r (.next u) = .next t) :
    t.status = u.status := by
  rw [settleRace, freeBytes_eq] at h
  injection h with h
  rw [← h]

/-- After a raise a race has left nothing but the mark of it, which is cleared: there are no bytes to free
(R302). -/
theorem settleRace_of_raises {i : Instr} {s : State} {c : Code} (h : Raises i s c) :
    settleRace (writeSet i s) (exec i s) =
      .next { takeError c s with env := { s.env with raced := false } } := by
  rw [show exec i s = _ from h, settleRace, writeSet_len_of_raises h]
  rfl

/-- A performance that ends with an error has raised it in the state before, and has cleared the mark of a race
(R123, R124, R264, R302). -/
theorem perform_of_errorCode {s t : State} (h : perform s = .next t)
    (hok : t.status.code ≠ .ok) (hnf : t.status.code ≠ .notFound) :
    ∃ c, t = takeError c s ∨
      (s.env.raced = true ∧ t = { takeError c s with env := { s.env with raced := false } }) := by
  cases hd : decode s.cmd with
  | reservedOpcode =>
    rw [perform_of_reservedOpcode hd] at h
    exact ⟨.illegalCommand, .inl (by simpa using h.symm)⟩
  | reservedBits =>
    rw [perform_of_reservedBits hd] at h
    exact ⟨.illegalOperand, .inl (by simpa using h.symm)⟩
  | instr i =>
    rw [perform_of_instr hd] at h
    split at h
    case isTrue hraced =>
      obtain ⟨u, hu⟩ := exec_next i s
      have hstatus : t.status = u.status := settleRace_status (hu ▸ h)
      rw [hstatus] at hok hnf
      obtain ⟨c, rfl⟩ := exec_of_errorCode hu hok hnf
      rw [settleRace_of_raises hu] at h
      exact ⟨c, .inr ⟨hraced, by simpa using h.symm⟩⟩
    case isFalse =>
      obtain ⟨c, rfl⟩ := exec_of_errorCode h hok hnf
      exact ⟨c, .inl rfl⟩

end Sys2Proof.Machine
end

section
/-! The statements about how a command ends (60_exceptions.md). -/

namespace Sys2Proof.Proofs

open Sys2Proof.Machine Sys2Proof.Safety

/-- Settles O8: a raise touches STATUS alone, and a race leaves it no byte to free. -/
theorem raiseChangesOnlyStatus : Obligations.RaiseChangesOnlyStatus := by
  intro s t h hok hnf
  obtain ⟨c, rfl | ⟨hraced, rfl⟩⟩ := perform_of_errorCode h hok hnf
  · exact ⟨fun _ => rfl, rfl⟩
  · exact ⟨fun hno => by simp [hraced] at hno, rfl⟩

/-- Settles O10: each way a command can end carries a code of its row. -/
theorem everyCommandEndsWithACodeOfItsRow : Obligations.EveryCommandEndsWithACodeOfItsRow := by
  intro i s
  obtain ⟨t, h⟩ := exec_next i s
  refine ⟨t, h, (exec_status h).busy, ?_⟩
  obtain ⟨c, u, hu, rfl⟩ | ⟨c, hc, rfl⟩ := exec_next_cases h
  · exact complete_mayEnd hu
  · exact raise_mayEnd hc

end Sys2Proof.Proofs
end

section
/-! A waiting host (30_encoding.md R130, 70_reset_and_hazards.md R310): each poll counts the latency down by one and
changes nothing else, and the block then performs the pending word. -/

namespace Sys2Proof.Machine

/-! ## Runs -/

theorem run_succ_of_step {M : Host.Core} {s t : M.State} (k : Nat) (h : M.step s = .next t) :
    M.run (k + 1) s = M.run k t := by
  rw [Host.Core.run, h]

theorem run_one (M : Host.Core) (s : M.State) : M.run 1 s = M.step s := by
  rw [Host.Core.run]
  cases M.step s <;> rfl

/-! ## Polling -/

/-- A poll while the command is pending leaves the wait as the next action, with one less of the latency. -/
theorem step_of_waiting {s : State} {rest : List HostAction} {d : Nat} (hbusy : s.status.busy = true)
    (hq : s.env.queue = .wait :: rest) (hd : s.env.delay = d + 1) :
    step s = .next { s with env := { s.env with delay := d } } := by
  simp [step, hostAct, hq, hbusy, hd]

/-- While the host waits, d polls and one more step are the performance of the pending word (R310). -/
theorem run_of_waiting {s : State} {rest : List HostAction} {d : Nat} (hbusy : s.status.busy = true)
    (hq : s.env.queue = .wait :: rest) (hd : s.env.delay = d) :
    Host.Core.run Sys2Proof.core (d + 1) s = perform { s with env := { s.env with delay := 0 } } := by
  induction d generalizing s with
  | zero =>
    have hs : { s with env := { s.env with delay := 0 } } = s := by rw [← hd]
    rw [hs]
    exact (run_one Sys2Proof.core s).trans (step_of_blockMoves ⟨hbusy, .inr hd⟩)
  | succ d ih =>
    exact (run_succ_of_step (M := Sys2Proof.core) (d + 1) (step_of_waiting hbusy hq hd)).trans
      (ih (s := { s with env := { s.env with delay := d } }) hbusy hq rfl)

theorem exec_env {i : Instr} {s t : State} (h : exec i s = .next t) : t.env = s.env := by
  obtain ⟨-, -, -, -, -, -, henv⟩ := Proofs.commandsKeepHostRegisters i s t h
  exact henv

/-- A performance takes nothing off what the host has still to do. -/
theorem perform_queue {s t : State} (h : perform s = .next t) : t.env.queue = s.env.queue := by
  obtain ⟨c, rfl⟩ | ⟨i, hi⟩ | ⟨i, u, hu, rfl⟩ := perform_next_cases h
  · rfl
  · rw [exec_env hi]
  · simp [exec_env hu]

end Sys2Proof.Machine
end

section
/-! Cursors as a reset leaves them (70_reset_and_hazards.md R292): what a command does when its reader or writer has
no room left, and when what it emits is empty. -/

namespace Sys2Proof.Machine

open Sys2Proof.Safety

/-! ## The checks a command passes -/

/-- Past a check that holds, a command goes on with the rest of its pseudocode (R266). -/
theorem exec_past_check {i : Instr} {s : State} {k : Code} {e : Ending} {c : Prop} [Decidable c]
    (he : exec i s = Ending.settle s (if c then .raise k else e)) (hc : ¬ c) :
    exec i s = Ending.settle s e :=
  he.trans (congrArg (Ending.settle s) (if_neg hc))

theorem not_sourceFits_fails {s : State} (h : s.latA.toNat + s.latB.toNat < 2 ^ 32) :
    ¬ (!s.sourceFits) = true :=
  sourceFits_fails_iff.not.mpr (Nat.not_le.mpr h)

theorem not_sourceAdmitted_fails {s : State} (h : s.plat.admitsAll s.source = true) :
    ¬ (!s.sourceAdmitted) = true := by
  rw [State.sourceAdmitted, h]
  decide

theorem exec_flvThdr_of_legal {ty : BitVec 5} {s : State} (hty : ty = 8 ∨ ty = 9 ∨ ty = 18)
    (hA : s.latA.toNat < 2 ^ 24) :
    exec (.flvThdr ty) s = Ending.settle s (s.emit (tagHeader ty s.opndA s.opndB)) :=
  exec_past_check (exec_past_check rfl (by tauto)) (Nat.not_le.mpr hA)

/-- FLV.VHDR for a packet that is no NALU has no composition time (R233). -/
theorem exec_flvVhdr_of_other {ft : BitVec 4} {pkt : BitVec 8} {s : State} (hpkt : pkt = 0 ∨ pkt = 2) :
    exec (.flvVhdr ft pkt) s = Ending.settle s (s.emit (videoHeader ft pkt 0)) := by
  obtain rfl | rfl := hpkt <;> rfl

theorem exec_flvVhdr_of_nalu {ft : BitVec 4} {s : State} (hlo : -(2 ^ 23) ≤ s.latA.toInt)
    (hhi : s.latA.toInt ≤ 2 ^ 23 - 1) :
    exec (.flvVhdr ft 1) s = Ending.settle s (s.emit (videoHeader ft 1 (s.opndA % 2 ^ 24))) :=
  exec_past_check (c := s.latA.toInt < -2 ^ 23 ∨ 2 ^ 23 - 1 < s.latA.toInt) rfl (by omega)

section Source

variable {s : State} (hfit : s.latA.toNat + s.latB.toNat < 2 ^ 32)
  (hadm : s.plat.admitsAll s.source = true)
include hfit hadm

theorem exec_flvPayload_of_source :
    exec .flvPayload s = Ending.settle s (s.emitCounted (s.snapshot 0) s.opndB) :=
  exec_past_check (exec_past_check rfl (not_sourceFits_fails hfit)) (not_sourceAdmitted_fails hadm)

theorem exec_flvPnal_of_source : exec .flvPnal s =
    Ending.settle s (s.emitCounted (beBytes 4 s.opndB ++ s.snapshot 0) (s.opndB + 4)) :=
  exec_past_check (exec_past_check rfl (not_sourceFits_fails hfit)) (not_sourceAdmitted_fails hadm)

theorem exec_flvPadts_of_source (hB : 7 ≤ s.latB.toNat) :
    exec .flvPadts s = Ending.settle s (s.emitCounted (s.snapshot 7) (s.opndB - 7)) :=
  exec_past_check (exec_past_check (exec_past_check rfl (not_sourceFits_fails hfit)) (Nat.not_lt.mpr hB))
    (not_sourceAdmitted_fails hadm)

theorem exec_rbspExtract_of_source (hB : 1 ≤ s.latB.toNat) : exec .rbspExtract s =
    Ending.settle s (s.emitCounted (strip (s.snapshot 1)) (strip (s.snapshot 1)).length) :=
  exec_past_check
    (exec_past_check (exec_past_check rfl (not_sourceFits_fails hfit)) (Nat.one_le_iff_ne_zero.mp hB))
    (not_sourceAdmitted_fails hadm)

end Source

/-! ## A reader with no bit left -/

/-- A field that does not fit the reader raises DECODE_ERROR (R142, R143). -/
theorem raises_of_readField_past_cap {i : Instr} {s : State} {n : Nat}
    (he : exec i s = Ending.settle s (s.readField n)) (h : s.rd.cap.toNat < s.rd.pos.toNat + n) :
    Raises i s .decodeError := by
  have htake : s.take s.rd.pos.toNat n = .error .decodeError := if_pos h
  rw [Raises, he, State.readField, htake]
  rfl

/-- With no bit left both decoders raise at their first bit (R143, R170). -/
theorem raises_ue_se_past_cap {s : State} (h : s.rd.cap.toNat ≤ s.rd.pos.toNat) :
    Raises .rdUe s .decodeError ∧ Raises .rdSe s .decodeError :=
  raises_after_zeros (k := 0) (by decide) (fun x hx => absurd hx (Nat.not_lt_zero x))
    (take_one_pastCap h)

/-! ## A writer with no room left -/

/-- A writer that stands at its capacity takes no bit (R158). -/
theorem raises_of_emitting_full {i : Instr} {s : State} {bits : List Bool} {after : State → State}
    (hfull : s.wr.cap.toNat ≤ s.wr.pos.toNat) (hb : 0 < bits.length)
    (he : exec i s = Ending.settle s (s.emitting bits after)) : Raises i s .capacityError := by
  have hemit : s.emitBits bits = .error .capacityError := if_pos (by omega)
  rw [Raises, he, State.emitting, hemit]
  rfl

theorem bytesBits_length_pos {l : List Byte} (h : 0 < l.length) : 0 < (bytesBits l).length := by
  rw [bytesBits_length]
  omega

/-- The same for an Emit of at least one byte (R220). -/
theorem raises_of_emit_full {i : Instr} {s : State} {l : List Byte}
    (hfull : s.wr.cap.toNat ≤ s.wr.pos.toNat) (hl : 0 < l.length)
    (he : exec i s = Ending.settle s (s.emit l)) : Raises i s .capacityError :=
  raises_of_emitting_full hfull (bytesBits_length_pos hl) he

/-- The same for an Emit that counts into RESULT (R34). -/
theorem raises_of_emitCounted_full {i : Instr} {s : State} {l : List Byte} {n : Nat}
    (hfull : s.wr.cap.toNat ≤ s.wr.pos.toNat) (hl : 0 < l.length)
    (he : exec i s = Ending.settle s (s.emitCounted l n)) : Raises i s .capacityError :=
  raises_of_emitting_full hfull (bytesBits_length_pos hl) he

/-- An emission of no bits moves nothing and succeeds, at capacity 0 too (R158, entry 18). -/
theorem emitBits_nil {s : State} (h : s.wr.pos.toNat ≤ s.wr.cap.toNat) : s.emitBits [] = .ok s := by
  have hpos : BitVec.ofNat 32 s.wr.pos.toNat = s.wr.pos := ofNat_toNat_word _
  obtain ⟨hcap, -⟩ | ⟨-, hadm, -⟩ | ⟨-, -, hok⟩ := emitBits_cases s []
  · exact absurd hcap (Nat.not_lt.mpr h)
  · exact absurd (admitsAll_outSpan_zero s) (Bool.eq_false_iff.mp hadm)
  · simpa [Memory.putBits, hpos] using hok

/-- A command that emits no byte and counts it completes with OK and RESULT 0 (R158, R236, R241, R210). -/
theorem exec_of_emitCounted_none {i : Instr} {s : State} {l : List Byte} {n : Nat}
    (h : s.wr.pos.toNat ≤ s.wr.cap.toNat) (hl : l = []) (hn : n = 0)
    (he : exec i s = Ending.settle s (s.emitCounted l n)) :
    exec i s = .next { s with status := s.status.completed .ok, result := 0 } := by
  subst hl hn
  have hnil : s.emitBits (bytesBits []) = .ok s := emitBits_nil h
  rw [he, State.emitCounted, State.emitting, hnil]
  rfl

/-! ## The emitted bytes -/

theorem snapshot_length (s : State) (skip : Nat) : (s.snapshot skip).length = s.latB.toNat - skip :=
  Memory.bytes_length _ _ _

theorem snapshot_eq_nil {s : State} {skip : Nat} (h : s.latB.toNat ≤ skip) : s.snapshot skip = [] :=
  List.eq_nil_of_length_eq_zero (by rw [snapshot_length]; omega)

/-- Strip keeps a byte of every payload that has one (R214). -/
theorem strip_length_pos {payload : List Byte} (h : 0 < payload.length) : 0 < (strip payload).length := by
  have hbounds := Proofs.stripLosesAtMostAThird payload
  omega

end Sys2Proof.Machine
end

section
/-! The host's accesses to a byte of buffer memory while a command is pending (70_reset_and_hazards.md R302). -/

namespace Sys2Proof.Machine

theorem hostAct_memRead {s : State} {a : Nat} (h : s.plat.admits a = true) :
    hostAct (.memRead a) s = .next (hostReadByte a s) := if_pos h

theorem hostAct_memWrite {s : State} {a : Nat} (h : s.plat.admits a = true) (v : Byte) :
    hostAct (.memWrite a v) s = .next (hostWriteByte a v s) := if_pos h

/-- A byte outside the access set is read as memory holds it. -/
theorem hostReadByte_outside {s : State} {a : Nat} (h : s.pendingTouches a = false) :
    hostReadByte a s = answer ((s.mem.read a).setWidth 32) s := by
  simp [hostReadByte, h]

/-- A byte outside the access set takes the value written. -/
theorem hostWriteByte_outside {s : State} {a : Nat} (v : Byte) (h : s.pendingTouches a = false) :
    hostWriteByte a v s = { s with mem := s.mem.write a v } := by
  simp [hostWriteByte, h]

/-- A read answers the host and changes no state of the block. -/
theorem hostReadByte_eq (a : Nat) (s : State) :
    hostReadByte a s = { s with env := (hostReadByte a s).env } := by
  unfold hostReadByte
  split <;> rfl

/-- A write inside the access set gives the byte a free value and marks the race. -/
theorem hostWriteByte_inside {s : State} {a : Nat} (v : Byte) (hbusy : s.status.busy = true)
    (h : s.pendingTouches a = true) :
    hostWriteByte a v s = { s with
      mem := (freeBytes a 1 s).mem
      env := { s.env with drawn := s.env.drawn + 1, raced := true } } := by
  simp only [hostWriteByte, hbusy, h, Bool.and_self, if_true]
  rw [freeBytes_eq]

end Sys2Proof.Machine
end

section
/-! The statements about reset and hazards (70_reset_and_hazards.md). -/

namespace Sys2Proof.Proofs

open Sys2Proof.Machine Sys2Proof.Safety

/-! ## Reset -/

/-- Settles O17: the reset state has its registers cleared and lists no memory. -/
theorem resetMeetsTheInvariant : Obligations.ResetMeetsTheInvariant :=
  inv_clearRegisters (s := State.reset) rfl

/-- Settles O56. -/
theorem hardwareResetClearsTheRegisters : Obligations.HardwareResetClearsTheRegisters :=
  fun s => ⟨clearRegisters s, rfl, rfl, rfl⟩

/-- Settles O58: a reader with no bit left, a writer with no room left, an inactive splitter. -/
theorem afterResetCursorsAreEmpty : Obligations.AfterResetCursorsAreEmpty := by
  intro s n au vi ty ft pkt hrd hwr hspl hn1 hn32
  have hread : s.rd.cap.toNat = s.rd.pos.toNat := by rw [hrd]
  have hfull : s.wr.cap.toNat ≤ s.wr.pos.toNat := by rw [hwr]
  have hroom : s.wr.pos.toNat ≤ s.wr.cap.toNat := by rw [hwr]
  have hn : ¬ (n.toNat < 1 ∨ 32 < n.toNat) := by omega
  obtain ⟨hue, hse⟩ := raises_ue_se_past_cap hread.le
  refine ⟨raises_of_readField_past_cap (exec_rdBits_of_legal s hn) (by omega),
    raises_of_readField_past_cap (exec_rdBit s) (by omega), hue, hse,
    raises_of_emitting_full hfull (by rwa [valueBits_length]) (exec_wrBits_of_legal s hn),
    raises_of_emit_full hfull (by simp [fileHeader]) rfl, fun hpkt => ?ahdr, fun hpkt => ?vhdr,
    fun hlo hhi => ?nalu, fun hty hA => ?thdr, fun hA => ?trailer, fun hfit hadm => ?bodies,
    exec_splNext_inactive hspl, ?skip⟩
  case ahdr => exact raises_of_emit_full hfull (by simp) (exec_past_check rfl (Nat.not_lt.mpr hpkt))
  case vhdr => exact raises_of_emit_full hfull (by simp [videoHeader]) (exec_flvVhdr_of_other hpkt)
  case nalu => exact raises_of_emit_full hfull (by simp [videoHeader]) (exec_flvVhdr_of_nalu hlo hhi)
  case thdr => exact raises_of_emit_full hfull (by simp [tagHeader]) (exec_flvThdr_of_legal hty hA)
  case trailer =>
    exact raises_of_emit_full hfull (by simp [beBytes]) (exec_past_check rfl (Nat.not_le.mpr hA))
  case bodies =>
    refine ⟨?pnal, fun hB => ?payload, fun hB => ?padts, fun hB => ?rbsp, fun hB => ?noPayload,
      fun hB => ?noPadts, fun hB => ?noRbsp⟩
    case pnal =>
      exact raises_of_emitCounted_full hfull (by simp [beBytes]) (exec_flvPnal_of_source hfit hadm)
    case payload =>
      exact raises_of_emitCounted_full hfull (by rw [snapshot_length]; omega)
        (exec_flvPayload_of_source hfit hadm)
    case padts =>
      exact raises_of_emitCounted_full hfull (by rw [snapshot_length]; omega)
        (exec_flvPadts_of_source hfit hadm (by omega))
    case rbsp =>
      exact raises_of_emitCounted_full hfull (strip_length_pos (by rw [snapshot_length]; omega))
        (exec_rbspExtract_of_source hfit hadm (by omega))
    case noPayload =>
      exact exec_of_emitCounted_none hroom (snapshot_eq_nil hB.le) hB
        (exec_flvPayload_of_source hfit hadm)
    case noPadts =>
      exact exec_of_emitCounted_none hroom (snapshot_eq_nil hB.le) (Nat.sub_eq_zero_of_le hB.le)
        (exec_flvPadts_of_source hfit hadm hB.ge)
    case noRbsp =>
      have hnone : strip (s.snapshot 1) = [] := by rw [snapshot_eq_nil hB.le]; rfl
      exact exec_of_emitCounted_none hroom hnone (by rw [hnone]; rfl)
        (exec_rbspExtract_of_source hfit hadm hB.ge)
  case skip =>
    rw [rdSkipAdvancesOrStays, hrd]
    rfl

/-! ## Hazards -/

/-- Settles O59. -/
theorem hostBytesOutsideTheAccessSetAreUnaffected :
    Obligations.HostBytesOutsideTheAccessSetAreUnaffected := by
  intro s a v hadm hbusy
  rw [hostAct_memRead hadm, hostAct_memWrite hadm]
  refine ⟨fun hout => ?_, fun hin => ⟨⟨_, rfl, hostReadByte_eq a s⟩, _, rfl, ?_⟩⟩
  · rw [hostReadByte_outside hout, hostWriteByte_outside v hout]
    exact ⟨rfl, rfl⟩
  · rw [hostWriteByte_inside v hbusy hin]
    exact ⟨rfl, rfl, fun x hx => freeBytes_read s (by omega)⟩

/-! ## The latency -/

/-- Settles O19: the polls run the latency out, and the last step is the performance. -/
theorem waitingHostSeesCompletion : Obligations.WaitingHostSeesCompletion := by
  intro s rest hbusy hq
  obtain ⟨t, ht⟩ := perform_next { s with env := { s.env with delay := 0 } }
  exact ⟨t, (run_of_waiting hbusy hq rfl).trans ht, ht, (perform_status ht).busy,
    (perform_queue ht).trans hq⟩

end Sys2Proof.Proofs
end
